-- ==== Sys2Proof/Word.lean ====
section
/-! DEFINITION. The machine word, its two readings and the narrowing back to a word
(00_scope.md R7), and the width of the instruction word (30_encoding.md R73). -/

namespace Sys2Proof

/-- A register, a data-memory cell or an instruction operand: 32 bits (00_scope.md R4, R7). -/
abbrev Word := BitVec 32

/-- The instruction word of the instruction-memory interface: 101 bits (30_encoding.md R73). -/
abbrev InstrWord := BitVec 101

/-- The signed reading of a word, `s32` of 00_scope.md R7. -/
abbrev s32 (v : Word) : Int := v.toInt

/-- The unsigned reading of a word, `u32` of 00_scope.md R7. -/
abbrev u32 (v : Word) : Nat := v.toNat

/-- The word congruent to an exact integer modulo `2^32`, `w32` of 00_scope.md R7. -/
abbrev w32 (n : Int) : Word := BitVec.ofInt 32 n

end Sys2Proof
end

