-- ==== Sys2Proof/Config.lean ====
section
/-! DEFINITION. What is fixed for one machine instance (00_scope.md R4, R5; 40_step_cycle.md R129)
and the one free value of the model, the word an IN receives when no answer is listed. -/

namespace Sys2Proof

/-- The construction-time constants of one machine. They are carried in the state, so that every
statement about all states is a statement about all capacities; nothing changes them. -/
structure Config where
  /-- `CAP`: the number of data cells and of instruction slots (00_scope.md R4). -/
  cap : Nat
  /-- `RUN_STEPS_WHEN_STOPPED` as a flag: whether `run`, called on a machine that is not `OK`, makes
  one no-op step (40_step_cycle.md R129, left open by 92_eei_decisions.md D14). -/
  runStepsWhenStopped : Bool
  deriving DecidableEq, Repr

/-- The well-formedness condition of a capacity, `1 <= CAP <= 2^31 - 1` (00_scope.md R5). -/
abbrev Config.wf (c : Config) : Prop := 1 ≤ c.cap ∧ c.cap ≤ 2147483647

/-- The default configuration: capacity 1024 (00_scope.md R4) and the recommended while-loop form
of `run` (92_eei_decisions.md D14). DESIGN CHOICE that the reset machine has these (logs 1, 10). -/
def Config.standard : Config := { cap := 1024, runStepsWhenStopped := false }

/-- FREE VALUE: the word the host answers to the `n`-th `In()` of the machine when the state lists
no answer for it. It has no definition, so a claim holds for every word drawn
(41_halt_io.md R143; log 2). DESIGN CHOICE (log 2): it is one function for all machines, so two machines
with the same count draw the same word; the spec ties no machine's answers to another's
(50_interfaces.md R218), so a claim about two machines may rest on equal draws only where it says that
their hosts answer alike. -/
opaque Config.freeInput : Nat → Word

end Sys2Proof
end

