-- ==== Sys2Proof/Syntax.lean ====
section
/-! DEFINITION. The instruction record (30_encoding.md R70 to R72): one constructor for each row of
spec/opcode_table.json. -/

namespace Sys2Proof

/-- A register index, 0 to 7 (10_state.md R20, R22). -/
abbrev RegIdx := Fin 8

/-- A well-formed instruction (10_state.md R29, R30). The three operands stand in the order
`r`, `s`, `t` of 00_scope.md R9: in the `RegisterOnly` opcodes all three are register indices, in the
others the middle one is a signed 32-bit literal (30_encoding.md R71, R72). Operands that an
instruction ignores are kept, since the host can read them back (30_encoding.md R78). -/
inductive Instr where
  | halt (r s t : RegIdx)
  | inp (r s t : RegIdx)
  | out (r s t : RegIdx)
  | add (r s t : RegIdx)
  | sub (r s t : RegIdx)
  | mul (r s t : RegIdx)
  | div (r s t : RegIdx)
  | ld (r : RegIdx) (s : Word) (t : RegIdx)
  | st (r : RegIdx) (s : Word) (t : RegIdx)
  | lda (r : RegIdx) (s : Word) (t : RegIdx)
  | ldc (r : RegIdx) (s : Word) (t : RegIdx)
  | jlt (r : RegIdx) (s : Word) (t : RegIdx)
  | jle (r : RegIdx) (s : Word) (t : RegIdx)
  | jgt (r : RegIdx) (s : Word) (t : RegIdx)
  | jge (r : RegIdx) (s : Word) (t : RegIdx)
  | jeq (r : RegIdx) (s : Word) (t : RegIdx)
  | jne (r : RegIdx) (s : Word) (t : RegIdx)
  deriving DecidableEq, Repr

end Sys2Proof
end

