-- ==== Sys2Proof/Machine/State.lean ====
section
/-! DEFINITION. The state of the machine (10_state.md) and the model's own record of what passes
between it and the host (41_halt_io.md R143, R144), the outcomes of a step, and the state after
power-on reset. Plain data throughout. -/

namespace Sys2Proof.Machine

/-- The sticky fault/halt flag (10_state.md R31, 60_exceptions.md R231). -/
inductive CpuState where
  /-- The only value in which execution proceeds. -/
  | ok
  /-- Normal termination (60_exceptions.md R238). -/
  | halted
  /-- DIV with a zero divisor (42_arithmetic.md R153). -/
  | divideByZero
  /-- The program counter was outside `[0, CAP)` at a fetch (40_step_cycle.md R122). -/
  | instructionFault
  /-- LD or ST with an address outside `[0, CAP)` (43_load_store.md R163). -/
  | dataFault
  deriving DecidableEq, Repr

/-- What passes between the core and the host in a step (00_scope.md R8, 40_step_cycle.md R133). -/
inductive Event where
  /-- `Trace(i)`: the fetched instruction is reported (40_step_cycle.md R124). -/
  | trace (i : Instr)
  /-- `In()` answered with a word (41_halt_io.md R141). -/
  | input (v : Word)
  /-- `Out(v)` (41_halt_io.md R142). -/
  | output (v : Word)
  /-- `Report(c)`: the step ended with `cpu_state = c`, not `OK` (40_step_cycle.md R128). -/
  | report (c : CpuState)
  deriving DecidableEq, Repr

/-- Stops of the model itself as a fault: none. The faults of this machine are values of `cpu_state`
in a next state (60_exceptions.md R230, R233), so no step answers with one of these (log 5). -/
inductive Fault
  deriving DecidableEq, Repr

/-- Why the model gives no next state. -/
inductive Refusal where
  /-- Raised by an arm of `exec` whose instruction has no meaning yet; no arm does. Safe. -/
  | notModelled (mnemonic : String)
  /-- Raised by `step` when the fetched word is not an instruction: 30_encoding.md R77 asks for no
  step there. Safe: it cannot arise through `loadProgram`. -/
  | illFormedWord (w : InstrWord)
  /-- Raised by `step` when the capacity is outside `[1, 2^31 - 1]`: 93_implementation_defined.md U5
  asks to refuse such a machine. Safe. -/
  | capacityOutOfRange (cap : Nat)
  /-- Raised by the loader when the source text is not ASCII: 30_encoding.md R91 asks to refuse such
  a text. Safe. -/
  | sourceNotAscii
  deriving DecidableEq, Repr

/-- A sparse array: (index, content) pairs. In canonical form the indices strictly rise and no listed
content equals what an unlisted index reads as (`Memory.wf` in Machine/Ops.lean). -/
abbrev Memory (α : Type) := List (Nat × α)

/-- The machine. The first six fields are the spec's (00_scope.md R4, 10_state.md R35); the last three
are the model's own and belong to the host's side of the interface. -/
structure State where
  /-- Construction-time constants: `CAP` (00_scope.md R4). No step changes them. -/
  cfg : Config
  /-- `x[0]` to `x[7]`; `x[7]` is the program counter (10_state.md R20, R23). -/
  regs : Vector Word 8
  /-- Data memory, by cell index (10_state.md R26, 20_memory.md R52; log 3). -/
  dmem : Memory Word
  /-- Instruction memory, by slot index, one instruction word a slot (10_state.md R28; log 4). -/
  imem : Memory InstrWord
  /-- `cpu_state` (10_state.md R31). -/
  cpuState : CpuState
  /-- `trace_enabled` (10_state.md R33). -/
  traceEnabled : Bool
  /-- MODEL: the answers the host has ready for `In()`, next one first (41_halt_io.md R143; log 2). -/
  inputs : List Word
  /-- MODEL: how many `In()` have been made; selects the free value of one (log 2). -/
  inputCount : Nat
  /-- MODEL: every event so far, oldest first (40_step_cycle.md R133, 41_halt_io.md R144; log 9). -/
  events : List Event
  deriving DecidableEq, Repr

/-- The machine after power-on reset with the default capacity (10_state.md R38, R41): registers 0,
both memories at their reset contents (nothing listed), `cpu_state` OK, trace off. -/
def State.reset : State :=
  { cfg := Config.standard
    regs := Vector.replicate 8 0
    dmem := []
    imem := []
    cpuState := .ok
    traceEnabled := false
    inputs := []
    inputCount := 0
    events := [] }

end Sys2Proof.Machine
end

