-- ==== Sys2Proof/Machine/Ops.lean ====
section
/-! DEFINITION. The named operations over memory, registers, events and `cpu_state` that every
instruction and every host operation is written with: the memory primitives (20_memory.md R59, R60),
register reads and writes (00_scope.md R8), raising a fault (60_exceptions.md R233) and the one way
back to `OK`, `initialize` (70_reset_and_hazards.md R260). -/

namespace Sys2Proof.Machine

/-! ### Sparse memories -/

/-- The canonical form of a sparse memory whose unlisted index `a` reads as `dflt a`. -/
abbrev Memory.wf {α : Type} (dflt : Nat → α) (m : Memory α) : Prop :=
  m.Pairwise (fun c d => c.1 < d.1) ∧ ∀ c ∈ m, c.2 ≠ dflt c.1

/-- Every listed index lies below the capacity. -/
abbrev Memory.within {α : Type} (cap : Nat) (m : Memory α) : Prop := ∀ c ∈ m, c.1 < cap

/-- What index `a` holds. -/
def Memory.read {α : Type} (dflt : Nat → α) : Memory α → Nat → α
  | [], a => dflt a
  | c :: m, a => if c.1 = a then c.2 else Memory.read dflt m a

/-- The memory without any entry for index `a`. -/
def Memory.erase {α : Type} (m : Memory α) (a : Nat) : Memory α :=
  m.filter (fun c => decide (c.1 ≠ a))

/-- Put an entry before the first entry of a larger index. -/
def Memory.insert {α : Type} (a : Nat) (v : α) : Memory α → Memory α
  | [] => [(a, v)]
  | c :: m => if a < c.1 then (a, v) :: c :: m else c :: Memory.insert a v m

/-- Write `v` at index `a`, keeping the canonical form: writing what an unlisted index reads as
removes the entry. -/
def Memory.write {α : Type} [DecidableEq α] (dflt : Nat → α) (m : Memory α) (a : Nat) (v : α) :
    Memory α :=
  if v = dflt a then m.erase a else (m.erase a).insert a v

/-- What a data cell that nothing has written since the last `initialize` reads as: `CAP - 1` in
cell 0, else 0 (10_state.md R38). -/
def dataReset (c : Config) (a : Nat) : Word := if a = 0 then w32 ((c.cap : Int) - 1) else 0

/-- What an instruction slot that nothing has been loaded into holds: the word of `HALT 0,0,0`
(10_state.md R39). -/
def slotReset (_ : Nat) : InstrWord := 0

/-- The content of data cell `a`, `MemRead(a, 32)` (20_memory.md R59). -/
def State.readData (s : State) (a : Nat) : Word := Memory.read (dataReset s.cfg) s.dmem a

/-- Write data cell `a`, `MemWrite(a, 32, v)` (20_memory.md R59). -/
def State.writeData (s : State) (a : Nat) (v : Word) : State :=
  { s with dmem := Memory.write (dataReset s.cfg) s.dmem a v }

/-- The word in instruction slot `p`, `IMemRead(p)` (20_memory.md R60). -/
def State.readSlot (s : State) (p : Nat) : InstrWord := Memory.read slotReset s.imem p

/-- Write instruction slot `p`; only the loader does (50_interfaces.md R205). -/
def State.writeSlot (s : State) (p : Nat) (w : InstrWord) : State :=
  { s with imem := Memory.write slotReset s.imem p w }

/-! ### Registers -/

/-- `x[k]` (00_scope.md R8). -/
def State.reg (s : State) (k : RegIdx) : Word := s.regs[k.val]

/-- `x[k] <- v` (00_scope.md R8); no register is hardwired (10_state.md R21). -/
def State.setReg (s : State) (k : RegIdx) (v : Word) : State :=
  { s with regs := s.regs.set k.val v }

/-- The index of the program counter (10_state.md R23). -/
def pcReg : RegIdx := 7

/-- The program counter, register 7 itself (10_state.md R23). -/
def State.pc (s : State) : Word := s.reg pcReg

/-- `pc <- v` (00_scope.md R8). -/
def State.setPc (s : State) (v : Word) : State := s.setReg pcReg v

/-! ### Events and the host's channel -/

/-- Record an event after those already made (40_step_cycle.md R133). -/
def State.emit (s : State) (e : Event) : State := { s with events := s.events ++ [e] }

/-- The word that answers the next `In()`: the host's next listed answer, or the free value if it
lists none (41_halt_io.md R143; log 2). -/
def State.nextInput (s : State) : Word :=
  match s.inputs with
  | v :: _ => v
  | [] => Config.freeInput s.inputCount

/-- `In()` as an event: the answer is used up (41_halt_io.md R141, 00_scope.md R8). -/
def State.takeInput (s : State) : State :=
  { s with inputs := s.inputs.tail, inputCount := s.inputCount + 1,
           events := s.events ++ [.input s.nextInput] }

/-- The output history: the words of the `Out` events, in order (41_halt_io.md R144). -/
def State.outputs (s : State) : List Word :=
  s.events.filterMap fun e =>
    match e with
    | .output v => some v
    | _ => none

/-! ### Stopping, and the one way back -/

/-- `raise F`: `cpu_state <- F` and nothing else; no register is saved and control goes nowhere
(60_exceptions.md R233, R241). The caller has written nothing but the advance of `x[7]`. -/
def State.raise (s : State) (f : CpuState) : State := { s with cpuState := f }

/-- `initialize(clear_program)` (70_reset_and_hazards.md R260): registers 0, data memory at its reset
contents, `cpu_state` OK; the instruction memory is rebuilt from HALT only if asked. The trace flag and
the capacity stay (10_state.md R40), and so does what is on the host's side (log 8). -/
def State.initialise (s : State) (clearProgram : Bool) : State :=
  { s with
    regs := Vector.replicate 8 0
    dmem := []
    imem := if clearProgram then [] else s.imem
    cpuState := .ok }

end Sys2Proof.Machine
end

