-- ==== Sys2Proof/Machine/Operands.lean ====
section
/-! DEFINITION. The one addressing mode and the one bounds check (40_step_cycle.md R125, R126;
20_memory.md R55, R56; 43_load_store.md R162). -/

namespace Sys2Proof.Machine

/-- The effective address `a = w32(s32(s) + s32(x[t]))` of literal `d` and base register `t`, read in
the state the body sees, that is after the advance (40_step_cycle.md R125, R126; log 6). -/
def State.effAddr (s : State) (d : Word) (t : RegIdx) : Word := w32 (s32 d + s32 (s.reg t))

/-- Whether a word, read as signed, lies in `[0, CAP)`: the check of data addresses (20_memory.md R55)
and of fetch addresses (20_memory.md R56). -/
def inRange (c : Config) (v : Word) : Bool :=
  decide (0 ≤ s32 v) && decide (s32 v < (c.cap : Int))

/-- The cell or slot index of an in-range address. -/
def cellIndex (v : Word) : Nat := (s32 v).toNat

end Sys2Proof.Machine
end

