-- ==== Sys2Proof/Machine/Arith.lean ====
section
/-! DEFINITION. ADD, SUB, MUL, DIV (42_arithmetic.md): the exact integer result, narrowed once by
`w32` (R154). Both sources are read before the destination is written (R157). -/

namespace Sys2Proof.Machine

/-- The word of DIV for a non-zero divisor: the quotient rounded toward zero, narrowed
(42_arithmetic.md R153, R155); `INT32_MIN / -1` is `INT32_MIN` (R156; log 7). -/
def quotient (n d : Word) : Word := w32 ((s32 n).tdiv (s32 d))

/-- ADD (42_arithmetic.md R150). -/
def execAdd (r u t : RegIdx) (s : State) : Host.Outcome State Fault Refusal :=
  .next (s.setReg r (w32 (s32 (s.reg u) + s32 (s.reg t))))

/-- SUB, first source minus second (42_arithmetic.md R151). -/
def execSub (r u t : RegIdx) (s : State) : Host.Outcome State Fault Refusal :=
  .next (s.setReg r (w32 (s32 (s.reg u) - s32 (s.reg t))))

/-- MUL, the low 32 bits of the exact product (42_arithmetic.md R152). -/
def execMul (r u t : RegIdx) (s : State) : Host.Outcome State Fault Refusal :=
  .next (s.setReg r (w32 (s32 (s.reg u) * s32 (s.reg t))))

/-- DIV: a zero divisor raises DIVIDE_BY_ZERO and writes no register (42_arithmetic.md R153). -/
def execDiv (r u t : RegIdx) (s : State) : Host.Outcome State Fault Refusal :=
  if s32 (s.reg t) = 0 then .next (s.raise .divideByZero)
  else .next (s.setReg r (quotient (s.reg u) (s.reg t)))

end Sys2Proof.Machine
end

