-- ==== Sys2Proof/Machine/HaltIo.lean ====
section
/-! DEFINITION. HALT, IN, OUT (41_halt_io.md). A meaning is the body the dispatch runs: it sees `x[7]`
already advanced. The middle operand, `s` in the spec, is named `u` because `s` is the state. -/

namespace Sys2Proof.Machine

/-- HALT: the operands are ignored (41_halt_io.md R140). -/
def execHalt (_r _u _t : RegIdx) (s : State) : Host.Outcome State Fault Refusal :=
  .next (s.raise .halted)

/-- IN: the host's word goes to `x[r]` (41_halt_io.md R141, R143). -/
def execIn (r _u _t : RegIdx) (s : State) : Host.Outcome State Fault Refusal :=
  .next (s.takeInput.setReg r s.nextInput)

/-- OUT: `x[r]` is reported (41_halt_io.md R142). -/
def execOut (r _u _t : RegIdx) (s : State) : Host.Outcome State Fault Refusal :=
  .next (s.emit (.output (s.reg r)))

end Sys2Proof.Machine
end

