-- ==== Sys2Proof/Machine/Flags.lean ====
section
/-! DEFINITION. The machine has no flags or condition codes (10_state.md R34): what stands here in
their place are the six tests of a register against zero that the jumps make (45_branches.md), and
the numeric code of `cpu_state` (10_state.md R32). -/

namespace Sys2Proof.Machine

/-- The condition of JLT (45_branches.md R180). -/
def isNegative (v : Word) : Bool := decide (s32 v < 0)

/-- The condition of JLE (45_branches.md R181). -/
def isNonPositive (v : Word) : Bool := decide (s32 v ≤ 0)

/-- The condition of JGT (45_branches.md R182). -/
def isPositive (v : Word) : Bool := decide (s32 v > 0)

/-- The condition of JGE (45_branches.md R183). -/
def isNonNegative (v : Word) : Bool := decide (s32 v ≥ 0)

/-- The condition of JEQ (45_branches.md R184). -/
def isZero (v : Word) : Bool := decide (s32 v = 0)

/-- The condition of JNE (45_branches.md R185). -/
def isNonZero (v : Word) : Bool := decide (s32 v ≠ 0)

/-- The code of `cpu_state` on a status port (10_state.md R32; log 18). -/
def CpuState.code : CpuState → BitVec 3
  | .ok => 0
  | .halted => 1
  | .divideByZero => 2
  | .instructionFault => 3
  | .dataFault => 4

end Sys2Proof.Machine
end

