-- ==== Sys2Proof/Machine/Jumps.lean ====
section
/-! DEFINITION. The six conditional jumps (45_branches.md): one shared target rule (R186), six
conditions on `x[r]`. -/

namespace Sys2Proof.Machine

/-- If the condition holds, `x[7] <- a`; else nothing is written and `x[7]` keeps the advanced value.
The target is not checked (45_branches.md R186). -/
def State.jumpIf (s : State) (taken : Bool) (a : Word) : State := if taken then s.setPc a else s

/-- JLT (45_branches.md R180). -/
def execJlt (r : RegIdx) (u : Word) (t : RegIdx) (s : State) : Host.Outcome State Fault Refusal :=
  .next (s.jumpIf (isNegative (s.reg r)) (s.effAddr u t))

/-- JLE (45_branches.md R181). -/
def execJle (r : RegIdx) (u : Word) (t : RegIdx) (s : State) : Host.Outcome State Fault Refusal :=
  .next (s.jumpIf (isNonPositive (s.reg r)) (s.effAddr u t))

/-- JGT (45_branches.md R182). -/
def execJgt (r : RegIdx) (u : Word) (t : RegIdx) (s : State) : Host.Outcome State Fault Refusal :=
  .next (s.jumpIf (isPositive (s.reg r)) (s.effAddr u t))

/-- JGE (45_branches.md R183). -/
def execJge (r : RegIdx) (u : Word) (t : RegIdx) (s : State) : Host.Outcome State Fault Refusal :=
  .next (s.jumpIf (isNonNegative (s.reg r)) (s.effAddr u t))

/-- JEQ (45_branches.md R184). -/
def execJeq (r : RegIdx) (u : Word) (t : RegIdx) (s : State) : Host.Outcome State Fault Refusal :=
  .next (s.jumpIf (isZero (s.reg r)) (s.effAddr u t))

/-- JNE (45_branches.md R185). -/
def execJne (r : RegIdx) (u : Word) (t : RegIdx) (s : State) : Host.Outcome State Fault Refusal :=
  .next (s.jumpIf (isNonZero (s.reg r)) (s.effAddr u t))

end Sys2Proof.Machine
end

