-- ==== Sys2Proof/Machine/LoadAddr.lean ====
section
/-! DEFINITION. LDA and LDC (44_load_address_constant.md): neither touches memory, neither faults. -/

namespace Sys2Proof.Machine

/-- LDA: the effective address itself, with no bounds check (44_load_address_constant.md R170). -/
def execLda (r : RegIdx) (u : Word) (t : RegIdx) (s : State) : Host.Outcome State Fault Refusal :=
  .next (s.setReg r (s.effAddr u t))

/-- LDC: the literal; `t` is ignored (44_load_address_constant.md R171). -/
def execLdc (r : RegIdx) (u : Word) (_t : RegIdx) (s : State) : Host.Outcome State Fault Refusal :=
  .next (s.setReg r u)

end Sys2Proof.Machine
end

