-- ==== Sys2Proof/Machine/LoadStore.lean ====
section
/-! DEFINITION. LD and ST (43_load_store.md). The bounds check precedes any access (R163). -/

namespace Sys2Proof.Machine

/-- LD (43_load_store.md R160). -/
def execLd (r : RegIdx) (u : Word) (t : RegIdx) (s : State) : Host.Outcome State Fault Refusal :=
  if inRange s.cfg (s.effAddr u t) then
    .next (s.setReg r (s.readData (cellIndex (s.effAddr u t))))
  else .next (s.raise .dataFault)

/-- ST (43_load_store.md R161). -/
def execSt (r : RegIdx) (u : Word) (t : RegIdx) (s : State) : Host.Outcome State Fault Refusal :=
  if inRange s.cfg (s.effAddr u t) then
    .next (s.writeData (cellIndex (s.effAddr u t)) (s.reg r))
  else .next (s.raise .dataFault)

end Sys2Proof.Machine
end

