-- ==== Sys2Proof/Machine/Dispatch.lean ====
section
/-! DEFINITION. The dispatch of 40_step_cycle.md R127: the body is selected by the opcode alone. -/

namespace Sys2Proof.Machine

def exec (i : Instr) (s : State) : Host.Outcome State Fault Refusal :=
  match i with
  | .halt r u t => Sys2Proof.Machine.execHalt r u t s
  | .inp r u t => Sys2Proof.Machine.execIn r u t s
  | .out r u t => Sys2Proof.Machine.execOut r u t s
  | .add r u t => Sys2Proof.Machine.execAdd r u t s
  | .sub r u t => Sys2Proof.Machine.execSub r u t s
  | .mul r u t => Sys2Proof.Machine.execMul r u t s
  | .div r u t => Sys2Proof.Machine.execDiv r u t s
  | .ld r u t => Sys2Proof.Machine.execLd r u t s
  | .st r u t => Sys2Proof.Machine.execSt r u t s
  | .lda r u t => Sys2Proof.Machine.execLda r u t s
  | .ldc r u t => Sys2Proof.Machine.execLdc r u t s
  | .jlt r u t => Sys2Proof.Machine.execJlt r u t s
  | .jle r u t => Sys2Proof.Machine.execJle r u t s
  | .jgt r u t => Sys2Proof.Machine.execJgt r u t s
  | .jge r u t => Sys2Proof.Machine.execJge r u t s
  | .jeq r u t => Sys2Proof.Machine.execJeq r u t s
  | .jne r u t => Sys2Proof.Machine.execJne r u t s

end Sys2Proof.Machine
end

