-- ==== Sys2Proof/WellFormed.lean ====
section
/-! DEFINITION. Opcodes, operand formats, the untyped instruction record and the checks that make a
record or a word's fields an instruction (10_state.md R30, 30_encoding.md R71, R77). An `Instr`
passes them by construction: its register operands are indices below 8. -/

namespace Sys2Proof

/-- The closed set of 17 mnemonics (30_encoding.md R71). -/
inductive Opcode where
  | halt | inp | out | add | sub | mul | div | ld | st | lda | ldc
  | jlt | jle | jgt | jge | jeq | jne
  deriving DecidableEq, Repr

/-- The three operand formats (30_encoding.md R71, R72). -/
inductive OperandFormat where
  | registerOnly | registerMemory | registerAddress
  deriving DecidableEq, Repr

/-- The fixed opcode-to-format mapping (30_encoding.md R71, R75). -/
def Opcode.format : Opcode → OperandFormat
  | .halt | .inp | .out | .add | .sub | .mul | .div => .registerOnly
  | .ld | .st => .registerMemory
  | .lda | .ldc | .jlt | .jle | .jgt | .jge | .jeq | .jne => .registerAddress

/-- The three operand positions of a record (00_scope.md R9). -/
inductive Operand where
  | r | s | t
  deriving DecidableEq, Repr

/-- The instruction record of 10_state.md R29: an opcode and three signed 32-bit integers. -/
structure Record where
  op : Opcode
  r : Word
  s : Word
  t : Word
  deriving DecidableEq, Repr

/-- The fields of an instruction word before any check (30_encoding.md R73). -/
structure Fields where
  op : BitVec 5
  r : Word
  s : Word
  t : Word
  deriving DecidableEq, Repr

/-- Whether an operand word is a register index, `0 <= v < 8` read as signed (10_state.md R30). -/
def isRegIndex (v : Word) : Bool := decide (0 ≤ s32 v) && decide (s32 v < 8)

/-- The invariant of 10_state.md R30 on a record. -/
def Record.wellFormed (c : Record) : Bool :=
  isRegIndex c.r && isRegIndex c.t &&
    (match c.op.format with
    | .registerOnly => isRegIndex c.s
    | .registerMemory | .registerAddress => true)

/-- The well-formedness of a word's fields (30_encoding.md R77). -/
def Fields.wellFormed (f : Fields) : Bool :=
  decide (f.op.toNat ≤ 16) && isRegIndex f.r && isRegIndex f.t &&
    (decide (6 < f.op.toNat) || isRegIndex f.s)

end Sys2Proof
end

