-- ==== Sys2Proof/Decode.lean ====
section
/-! DEFINITION. From instruction words to instructions and back (30_encoding.md R73, R74, R77).
`build` turns an opcode and three operand words into an instruction or names the operand that is no
register index; the word decoder here and the text decoder of Machine/Text.lean both use it. -/

namespace Sys2Proof

/-- Why a word is not an instruction (30_encoding.md R77). -/
inductive IllFormed where
  /-- The opcode number is above 16. -/
  | opcode (number : Nat)
  /-- A field that must be a register index lies outside `[0, 8)`. -/
  | register (which : Operand)
  deriving DecidableEq, Repr

/-- The outcome of decoding a word: an instruction, or a rejection by name. -/
inductive Decoded where
  | instr (i : Instr)
  | illFormed (why : IllFormed)
  deriving DecidableEq, Repr

/-! ### Opcode numbers (30_encoding.md R74) -/

/-- The number of an opcode. -/
def Opcode.number : Opcode → Nat
  | .halt => 0 | .inp => 1 | .out => 2 | .add => 3 | .sub => 4 | .mul => 5 | .div => 6
  | .ld => 7 | .st => 8 | .lda => 9 | .ldc => 10
  | .jlt => 11 | .jle => 12 | .jgt => 13 | .jge => 14 | .jeq => 15 | .jne => 16

/-- The opcode with a given number; numbers above 16 name none. -/
def Opcode.ofNumber : Nat → Option Opcode
  | 0 => some .halt | 1 => some .inp | 2 => some .out | 3 => some .add | 4 => some .sub
  | 5 => some .mul | 6 => some .div | 7 => some .ld | 8 => some .st | 9 => some .lda
  | 10 => some .ldc | 11 => some .jlt | 12 => some .jle | 13 => some .jgt | 14 => some .jge
  | 15 => some .jeq | 16 => some .jne
  | _ => none

/-! ### Records and instructions -/

/-- The register index an operand word names, if it names one (10_state.md R30). -/
def regIndex? (v : Word) : Option RegIdx :=
  if h : 0 ≤ s32 v ∧ s32 v < 8 then some ⟨(s32 v).toNat, by omega⟩ else none

/-- A `RegisterOnly` instruction from its operand words; the fields are checked in the order
`r`, `s`, `t` (30_encoding.md R77; log 11). -/
def decodeRegs (mk : RegIdx → RegIdx → RegIdx → Instr) (r s t : Word) : Decoded :=
  match regIndex? r, regIndex? s, regIndex? t with
  | none, _, _ => .illFormed (.register .r)
  | some _, none, _ => .illFormed (.register .s)
  | some _, some _, none => .illFormed (.register .t)
  | some r', some s', some t' => .instr (mk r' s' t')

/-- A `RegisterMemory` or `RegisterAddress` instruction from its operand words; the literal is
unconstrained (30_encoding.md R72, R77). -/
def decodeMem (mk : RegIdx → Word → RegIdx → Instr) (r s t : Word) : Decoded :=
  match regIndex? r, regIndex? t with
  | none, _ => .illFormed (.register .r)
  | some _, none => .illFormed (.register .t)
  | some r', some t' => .instr (mk r' s t')

/-- The instruction of an opcode and three operand words (30_encoding.md R71, R77). -/
def build (op : Opcode) (r s t : Word) : Decoded :=
  match op with
  | .halt => decodeRegs .halt r s t
  | .inp => decodeRegs .inp r s t
  | .out => decodeRegs .out r s t
  | .add => decodeRegs .add r s t
  | .sub => decodeRegs .sub r s t
  | .mul => decodeRegs .mul r s t
  | .div => decodeRegs .div r s t
  | .ld => decodeMem .ld r s t
  | .st => decodeMem .st r s t
  | .lda => decodeMem .lda r s t
  | .ldc => decodeMem .ldc r s t
  | .jlt => decodeMem .jlt r s t
  | .jle => decodeMem .jle r s t
  | .jgt => decodeMem .jgt r s t
  | .jge => decodeMem .jge r s t
  | .jeq => decodeMem .jeq r s t
  | .jne => decodeMem .jne r s t

/-- The operand word of a register index (30_encoding.md R76). -/
def regWord (k : RegIdx) : Word := BitVec.ofNat 32 k.val

/-- The record of an instruction (10_state.md R29). -/
def Instr.record : Instr → Record
  | .halt r s t => ⟨.halt, regWord r, regWord s, regWord t⟩
  | .inp r s t => ⟨.inp, regWord r, regWord s, regWord t⟩
  | .out r s t => ⟨.out, regWord r, regWord s, regWord t⟩
  | .add r s t => ⟨.add, regWord r, regWord s, regWord t⟩
  | .sub r s t => ⟨.sub, regWord r, regWord s, regWord t⟩
  | .mul r s t => ⟨.mul, regWord r, regWord s, regWord t⟩
  | .div r s t => ⟨.div, regWord r, regWord s, regWord t⟩
  | .ld r s t => ⟨.ld, regWord r, s, regWord t⟩
  | .st r s t => ⟨.st, regWord r, s, regWord t⟩
  | .lda r s t => ⟨.lda, regWord r, s, regWord t⟩
  | .ldc r s t => ⟨.ldc, regWord r, s, regWord t⟩
  | .jlt r s t => ⟨.jlt, regWord r, s, regWord t⟩
  | .jle r s t => ⟨.jle, regWord r, s, regWord t⟩
  | .jgt r s t => ⟨.jgt, regWord r, s, regWord t⟩
  | .jge r s t => ⟨.jge, regWord r, s, regWord t⟩
  | .jeq r s t => ⟨.jeq, regWord r, s, regWord t⟩
  | .jne r s t => ⟨.jne, regWord r, s, regWord t⟩

/-! ### The instruction word (30_encoding.md R73) -/

/-- The fields of an instruction word: `op = iw[100:96]`, `r = iw[95:64]`, `s = iw[63:32]`,
`t = iw[31:0]` (30_encoding.md R73). -/
def fieldsOf (w : InstrWord) : Fields :=
  { op := w.extractLsb' 96 5, r := w.extractLsb' 64 32, s := w.extractLsb' 32 32,
    t := w.extractLsb' 0 32 }

/-- Whether a word is well-formed (30_encoding.md R77). -/
def wordWellFormed (w : InstrWord) : Bool := (fieldsOf w).wellFormed

/-- The decoder: total on every 101-bit word, an ill-formed one is rejected by name
(30_encoding.md R73, R74, R77). -/
def decode (w : InstrWord) : Decoded :=
  match Opcode.ofNumber (fieldsOf w).op.toNat with
  | none => .illFormed (.opcode (fieldsOf w).op.toNat)
  | some op => build op (fieldsOf w).r (fieldsOf w).s (fieldsOf w).t

/-- The word of fields, `iw = op ‖ r ‖ s ‖ t` (30_encoding.md R73). -/
def packFields (f : Fields) : InstrWord := f.op ++ f.r ++ f.s ++ f.t

/-- The fields of a record (30_encoding.md R73, R74). -/
def Record.fields (c : Record) : Fields := ⟨BitVec.ofNat 5 c.op.number, c.r, c.s, c.t⟩

/-- The encoder: the word of an instruction (30_encoding.md R73, R74). -/
def encode (i : Instr) : InstrWord := packFields i.record.fields

/-! ### Words given as numbers, for the host's table (log 14) -/

/-- The instruction word a number stands for. Only the lowest `nbits` bits are given, the rest are 0.
A number that does not fit the 101 bits of a word (the padding of its 26 hexadecimal digits is not
zero, 00_scope.md R7) is no instruction word; it is read as the all-ones word, whose opcode number
31 is ill-formed, so that it is refused. DESIGN CHOICE (log 14). -/
def wordOfNumber (nbits w : Nat) : InstrWord :=
  if w % 2 ^ nbits < 2 ^ 101 then BitVec.ofNat 101 (w % 2 ^ nbits) else BitVec.allOnes 101

/-- The instruction of a decoding outcome, if it is one. -/
def Decoded.toOption : Decoded → Option Instr
  | .instr i => some i
  | .illFormed _ => none

/-- The instruction that the decoder reads from a word given as a number, bit 0 least significant,
in the numbering of spec/opcode_table.json. -/
def decodeTableWord (nbits w : Nat) : Option Instr := (decode (wordOfNumber nbits w)).toOption

end Sys2Proof
end

