-- ==== Sys2Proof/Machine/Fetch.lean ====
section
/-! DEFINITION. What every step does around the instruction's body (40_step_cycle.md): the fetch check,
the advance, the fetch, the trace event before the body and the report after it. -/

namespace Sys2Proof.Machine

/-- The fetch check: `0 <= s32(x[7]) < CAP` (40_step_cycle.md R122). -/
def State.pcInRange (s : State) : Bool := inRange s.cfg s.pc

/-- The word of the slot the program counter names (40_step_cycle.md R124). -/
def State.fetchWord (s : State) : InstrWord := s.readSlot (cellIndex s.pc)

/-- The advance `x[7] <- w32(p + 1)` (40_step_cycle.md R123). -/
def State.advance (s : State) : State := s.setPc (w32 (s32 s.pc + 1))

/-- `Trace(i)` when `trace_enabled` (40_step_cycle.md R124). -/
def State.traced (s : State) (i : Instr) : State :=
  if s.traceEnabled then s.emit (.trace i) else s

/-- The state the body of a fetched instruction sees: advanced, then traced
(40_step_cycle.md R123, R124, R127). -/
def State.bodyStart (s : State) (i : Instr) : State := s.advance.traced i

/-- `Report(cpu_state)` if the machine is not `OK` (40_step_cycle.md R128; log 9). -/
def State.reported (s : State) : State :=
  if s.cpuState = .ok then s else s.emit (.report s.cpuState)

/-- The report at the end of a step whose body has answered (40_step_cycle.md R128). -/
def endStep : Host.Outcome State Fault Refusal → Host.Outcome State Fault Refusal
  | .next t => .next t.reported
  | .fault f => .fault f
  | .refused r => .refused r

/-- A step on a machine that is not `OK`: only the report again (40_step_cycle.md R121). -/
def stoppedStep (s : State) : Host.Outcome State Fault Refusal := .next s.reported

/-- A step whose program counter is out of range: nothing is fetched and `x[7]` is kept
(40_step_cycle.md R122, 60_exceptions.md R234). -/
def fetchFaultStep (s : State) : Host.Outcome State Fault Refusal :=
  .next (s.raise .instructionFault).reported

/-- The machine made ready to fetch: the gate of 40_step_cycle.md R120 open and the program counter in
range, both changed only if the fetch needs it (log 14). -/
def State.readyToFetch (s : State) : State :=
  let s := { s with cpuState := .ok }
  if s.pcInRange then s else s.setPc 0

/-- Place a word in the slot that the next step fetches from. -/
def State.placeAtPc (s : State) (w : InstrWord) : State := s.writeSlot (cellIndex s.pc) w

end Sys2Proof.Machine
end

