-- ==== Sys2Proof/Machine/Step.lean ====
section
/-! DEFINITION. One step of the machine (40_step_cycle.md R134) and the placing of a word where the next
step fetches it. -/

namespace Sys2Proof.Machine

/-- One fetch-decode-execute cycle, in the order of 40_step_cycle.md R134. A machine whose capacity is
outside `[1, 2^31 - 1]` is refused (93_implementation_defined.md U5), and so is a fetched word that
is no instruction (30_encoding.md R77). -/
def step (s : State) : Host.Outcome State Fault Refusal :=
  if s.cfg.wf then
    if s.cpuState = .ok then
      if s.pcInRange then
        match decode s.fetchWord with
        | .instr i => endStep (exec i (s.bodyStart i))
        | .illFormed _ => .refused (.illFormedWord s.fetchWord)
      else fetchFaultStep s
    else stoppedStep s
  else .refused (.capacityOutOfRange s.cfg.cap)

/-- The state with the instruction whose bits are `w` in the slot that the next step fetches from
(log 14). -/
def State.withFetchWord (s : State) (nbits w : Nat) : State :=
  s.readyToFetch.placeAtPc (wordOfNumber nbits w)

end Sys2Proof.Machine
end

