-- ==== Sys2Proof/Machine/Text.lean ====
section
/-! DEFINITION. The text decoder (30_encoding.md Part C): one source line to an instruction, to nothing
(a discarded line) or to one of the three load-time errors; and the canonical text of an instruction.
A line is a list of characters without a line feed. -/

namespace Sys2Proof.Machine

/-! ### Characters (30_encoding.md R91; log 11) -/

/-- Whitespace inside a line: space, tab, carriage return, vertical tab, form feed. -/
def isSpace (c : Char) : Bool :=
  c.toNat == 32 || c.toNat == 9 || c.toNat == 13 || c.toNat == 11 || c.toNat == 12

/-- A decimal digit. -/
def isDigit (c : Char) : Bool := decide (48 ≤ c.toNat) && decide (c.toNat ≤ 57)

/-- `A`-`Z`, `a`-`z`, `0`-`9`. -/
def isAlnum (c : Char) : Bool :=
  isDigit c || (decide (65 ≤ c.toNat) && decide (c.toNat ≤ 90)) ||
    (decide (97 ≤ c.toNat) && decide (c.toNat ≤ 122))

/-- ASCII, the admitted set of program text. -/
def isAscii (c : Char) : Bool := decide (c.toNat < 128)

/-! ### Cutting text -/

/-- The pieces of a text between the characters that satisfy `p`: one more than there are of them. -/
def splitOn (p : Char → Bool) : List Char → List (List Char)
  | [] => [[]]
  | c :: cs =>
    if p c then [] :: splitOn p cs
    else
      match splitOn p cs with
      | [] => [[c]]
      | w :: ws => (c :: w) :: ws

/-- The text before and after the first character `x`. -/
def cutAt (x : Char) : List Char → Option (List Char × List Char)
  | [] => none
  | c :: cs =>
    if c = x then some ([], cs)
    else
      match cutAt x cs with
      | none => none
      | some (a, b) => some (c :: a, b)

/-- Trimming: whitespace removed from both ends (30_encoding.md R91). -/
def trim (l : List Char) : List Char := ((l.dropWhile isSpace).reverse.dropWhile isSpace).reverse

/-- The whitespace-separated tokens; runs of whitespace count once (30_encoding.md R81). -/
def tokens (l : List Char) : List (List Char) := (splitOn isSpace l).filter (fun w => !w.isEmpty)

/-- Whether a line is discarded: after trimming it has no alphanumeric content or starts with `*`
(30_encoding.md R80). -/
def isDiscarded (l : List Char) : Bool := !(trim l).any isAlnum || (trim l).head? == some '*'

/-! ### Mnemonics (30_encoding.md R71, R82) -/

/-- The mnemonic of an opcode. -/
def mnemonicOf : Opcode → List Char
  | .halt => ['H', 'A', 'L', 'T']
  | .inp => ['I', 'N']
  | .out => ['O', 'U', 'T']
  | .add => ['A', 'D', 'D']
  | .sub => ['S', 'U', 'B']
  | .mul => ['M', 'U', 'L']
  | .div => ['D', 'I', 'V']
  | .ld => ['L', 'D']
  | .st => ['S', 'T']
  | .lda => ['L', 'D', 'A']
  | .ldc => ['L', 'D', 'C']
  | .jlt => ['J', 'L', 'T']
  | .jle => ['J', 'L', 'E']
  | .jgt => ['J', 'G', 'T']
  | .jge => ['J', 'G', 'E']
  | .jeq => ['J', 'E', 'Q']
  | .jne => ['J', 'N', 'E']

/-- All opcodes, in the order of 30_encoding.md R74. -/
def allOpcodes : List Opcode :=
  [.halt, .inp, .out, .add, .sub, .mul, .div, .ld, .st, .lda, .ldc,
    .jlt, .jle, .jgt, .jge, .jeq, .jne]

/-- The opcode whose mnemonic a token is, exactly and in upper case (30_encoding.md R82). -/
def opcodeOf? (w : List Char) : Option Opcode := allOpcodes.find? (fun o => mnemonicOf o == w)

/-! ### Errors (30_encoding.md R86, R92) -/

/-- The payload of `InvalidArguments`. -/
inductive ArgError where
  /-- The operand string does not have the shape of the opcode's format (30_encoding.md R83, R84, R89). -/
  | malformed
  /-- An operand is not an integer of 32 bits (30_encoding.md R85). -/
  | notInteger (which : Operand)
  /-- An operand is an integer but no register index (30_encoding.md R86). -/
  | registerOutOfRange (which : Operand)
  deriving DecidableEq, Repr

/-- The three load-time error kinds (30_encoding.md R92). -/
inductive LineError where
  | invalidInstruction
  | invalidOpcode
  | invalidArguments (op : Opcode) (why : ArgError)
  deriving DecidableEq, Repr

/-- What becomes of one line (30_encoding.md R80, R88, R90). -/
inductive LineResult where
  | discarded
  | instr (i : Instr)
  | error (e : LineError)
  deriving DecidableEq, Repr

/-! ### Integers (30_encoding.md R85) -/

/-- The value of a run of digits. -/
def digitsValue (cs : List Char) : Nat := cs.foldl (fun n c => 10 * n + (c.toNat - 48)) 0

/-- One or more decimal digits, nothing else. -/
def parseNat? (cs : List Char) : Option Nat :=
  if !cs.isEmpty && cs.all isDigit then some (digitsValue cs) else none

/-- An optional minus sign and digits, as an integer of any size. -/
def parseAnyInt? : List Char → Option Int
  | '-' :: cs => (parseNat? cs).map fun n : Nat => -(n : Int)
  | cs => (parseNat? cs).map fun n : Nat => (n : Int)

/-- An integer literal: its value must lie in `[-2^31, 2^31 - 1]` (30_encoding.md R85). -/
def parseInt? (cs : List Char) : Option Int :=
  match parseAnyInt? cs with
  | some n => if -2147483648 ≤ n ∧ n ≤ 2147483647 then some n else none
  | none => none

/-! ### Operands (30_encoding.md R83, R84, R86) -/

/-- The outcome of parsing one operand. -/
inductive Parsed where
  | value (v : Word)
  | bad (e : ArgError)
  deriving DecidableEq, Repr

/-- A literal operand. -/
def parseLiteral (which : Operand) (cs : List Char) : Parsed :=
  match parseInt? cs with
  | some n => .value (w32 n)
  | none => .bad (.notInteger which)

/-- A register operand: an integer, then in `[0, 8)` (30_encoding.md R86). -/
def parseRegister (which : Operand) (cs : List Char) : Parsed :=
  match parseInt? cs with
  | some n => if 0 ≤ n ∧ n < 8 then .value (w32 n) else .bad (.registerOutOfRange which)
  | none => .bad (.notInteger which)

/-- The instruction of three parsed operands; the leftmost bad one is reported (30_encoding.md R86;
log 11). -/
def assemble (op : Opcode) (r s t : Parsed) : LineResult :=
  match r, s, t with
  | .bad e, _, _ => .error (.invalidArguments op e)
  | .value _, .bad e, _ => .error (.invalidArguments op e)
  | .value _, .value _, .bad e => .error (.invalidArguments op e)
  | .value r', .value s', .value t' =>
    match build op r' s' t' with
    | .instr i => .instr i
    | .illFormed (.register which) => .error (.invalidArguments op (.registerOutOfRange which))
    | .illFormed (.opcode _) => .error .invalidOpcode

/-- The grammar `r,s,t` (30_encoding.md R83). DESIGN CHOICE (log 11): a wrong number of fields is reported
as `malformed` before any field is looked at. -/
def decodeTriple (op : Opcode) (cs : List Char) : LineResult :=
  match splitOn (· == ',') cs with
  | [a, b, c] => assemble op (parseRegister .r a) (parseRegister .s b) (parseRegister .t c)
  | _ => .error (.invalidArguments op .malformed)

/-- The grammar `r,s(t)`: the first comma, the first `(` after it, the first `)` after that, and
nothing after that (30_encoding.md R84, R89). DESIGN CHOICE (log 11): the spec leaves open which failure
of a line with several is reported; here the shape, text after the `)` among it, is reported as `malformed`
before any field is looked at, so `LD 9,0(0)4` is `malformed` and not a register out of range. -/
def decodeBracketed (op : Opcode) (cs : List Char) : LineResult :=
  match cutAt ',' cs with
  | none => .error (.invalidArguments op .malformed)
  | some (a, rest) =>
    match cutAt '(' rest with
    | none => .error (.invalidArguments op .malformed)
    | some (b, rest') =>
      match cutAt ')' rest' with
      | some (c, []) => assemble op (parseRegister .r a) (parseLiteral .s b) (parseRegister .t c)
      | _ => .error (.invalidArguments op .malformed)

/-- The operand string by the grammar of the opcode's own format (30_encoding.md R87). -/
def decodeOperands (op : Opcode) (cs : List Char) : LineResult :=
  match op.format with
  | .registerOnly => decodeTriple op cs
  | .registerMemory => decodeBracketed op cs
  | .registerAddress => decodeBracketed op cs

/-! ### Lines (30_encoding.md R80 to R82, R88) -/

/-- The text decoder on one line: discard test, token count, mnemonic, operands, in this order
(30_encoding.md R88). -/
def decodeLine (l : List Char) : LineResult :=
  if isDiscarded l then .discarded
  else
    match tokens (trim l) with
    | [m, ops] =>
      match opcodeOf? m with
      | none => .error .invalidOpcode
      | some op => decodeOperands op ops
    | _ => .error .invalidInstruction

/-- The lines of a source text, cut at each line feed (30_encoding.md R99). -/
def sourceLines (src : List Char) : List (List Char) := splitOn (fun c => c.toNat == 10) src

/-! ### Canonical text (30_encoding.md R98) -/

/-- The decimal digits of a number below `10 ^ fuel`. -/
def decimalDigits : Nat → Nat → List Char
  | 0, _ => []
  | fuel + 1, n =>
    if n < 10 then [Char.ofNat (48 + n)]
    else decimalDigits fuel (n / 10) ++ [Char.ofNat (48 + n % 10)]

/-- A word as a signed decimal integer; ten digits hold every 32-bit value. -/
def decimal (v : Word) : List Char :=
  if s32 v < 0 then '-' :: decimalDigits 10 (-s32 v).toNat else decimalDigits 10 (s32 v).toNat

/-- The canonical operand string of a record. -/
def operandText (c : Record) : List Char :=
  match c.op.format with
  | .registerOnly => decimal c.r ++ [','] ++ decimal c.s ++ [','] ++ decimal c.t
  | .registerMemory => decimal c.r ++ [','] ++ decimal c.s ++ ['('] ++ decimal c.t ++ [')']
  | .registerAddress => decimal c.r ++ [','] ++ decimal c.s ++ ['('] ++ decimal c.t ++ [')']

/-- The canonical text of an instruction (30_encoding.md R98). -/
def canonicalText (i : Instr) : List Char :=
  mnemonicOf i.record.op ++ [' '] ++ operandText i.record

end Sys2Proof.Machine
end

