-- ==== Sys2Proof/Machine/Loader.lean ====
section
/-! DEFINITION. The loader (30_encoding.md Part D, 70_reset_and_hazards.md R265): a source text into
consecutive instruction slots from 0, all or nothing. -/

namespace Sys2Proof.Machine

/-- A load error: the 1-based line number, the line as it stood, and what was wrong
(30_encoding.md R94). -/
structure LoadError where
  line : Nat
  raw : List Char
  what : LineError
  deriving DecidableEq, Repr

/-- The instructions of a source text, or the first error. -/
inductive Program where
  | ok (is : List Instr)
  | bad (e : LoadError)
  deriving DecidableEq, Repr

/-- Put an instruction in front of those of the rest of the text. -/
def Program.cons (i : Instr) : Program → Program
  | .ok is => .ok (i :: is)
  | .bad e => .bad e

/-- Decode the lines from line number `n` on, with `free` slots left. Discarded lines take no slot; a
decoded line without a slot is an `InvalidInstruction` (30_encoding.md R93, R94, R96). -/
def decodeLines : (n free : Nat) → List (List Char) → Program
  | _, _, [] => .ok []
  | n, free, l :: ls =>
    match decodeLine l with
    | .discarded => decodeLines (n + 1) free ls
    | .error e => .bad ⟨n, l, e⟩
    | .instr i =>
      match free with
      | 0 => .bad ⟨n, l, .invalidInstruction⟩
      | free + 1 => Program.cons i (decodeLines (n + 1) free ls)

/-- Place instructions in consecutive slots from `p` on (30_encoding.md R93). -/
def State.placeFrom (s : State) (p : Nat) : List Instr → State
  | [] => s
  | i :: is => (s.writeSlot p (encode i)).placeFrom (p + 1) is

/-- What `loadProgram` returns, with the machine it leaves. -/
inductive LoadOutcome where
  /-- Success: the program is in place and the machine in its reset state (30_encoding.md R93). -/
  | loaded (s : State)
  /-- Failure: the machine is in its reset state with every slot HALT (30_encoding.md R94, R95). -/
  | failed (e : LoadError) (s : State)
  /-- The text is not ASCII and outside the admitted set (30_encoding.md R91; log 11). -/
  | refused (r : Refusal)
  deriving DecidableEq, Repr

/-- `loadProgram(sourceText)` (30_encoding.md R93 to R96). -/
def State.loadProgram (s : State) (src : List Char) : LoadOutcome :=
  if src.all isAscii then
    match decodeLines 1 s.cfg.cap (sourceLines src) with
    | .ok is => .loaded ((s.initialise true).placeFrom 0 is)
    | .bad e => .failed e (s.initialise true)
  else .refused .sourceNotAscii

end Sys2Proof.Machine
end

