-- ==== Sys2Proof/Machine/HostOps.lean ====
section
/-! DEFINITION. The operations the core exposes to the host (50_interfaces.md R200 to R209, R214):
initialize, reset, power-on, step, run, loadProgram, the trace flag and the read-only accessors. -/

namespace Sys2Proof.Machine

/-- `reset()` (70_reset_and_hazards.md R261). -/
def State.resetKeep (s : State) : State := s.initialise false

/-- The hardware reset: `initialize(true)` and trace off (10_state.md R41). -/
def State.powerOn (s : State) : State := { s.initialise true with traceEnabled := false }

/-- The setter of the trace flag (50_interfaces.md R206). -/
def State.setTrace (s : State) (on : Bool) : State := { s with traceEnabled := on }

/-- The host gets one more answer ready for `In()` (50_interfaces.md R209; log 2). -/
def State.supplyInput (s : State) (v : Word) : State := { s with inputs := s.inputs ++ [v] }

/-! ### Accessors (50_interfaces.md R206; log 13) -/

/-- The register vector. -/
def State.registers (s : State) : Vector Word 8 := s.regs

/-- A contiguous range of data cells; a range that leaves `[0, CAP)` is the host's error. -/
def State.dataRange (s : State) (start len : Nat) : Option (List Word) :=
  if start + len ≤ s.cfg.cap then some ((List.range len).map fun k => s.readData (start + k)) else none

/-- A contiguous range of instruction words; a range that leaves `[0, CAP)` is the host's error. -/
def State.slotRange (s : State) (start len : Nat) : Option (List InstrWord) :=
  if start + len ≤ s.cfg.cap then some ((List.range len).map fun k => s.readSlot (start + k)) else none

/-! ### run (40_step_cycle.md R129) -/

/-- Where a `run` under a step budget has got to (70_reset_and_hazards.md R272). -/
inductive RunOutcome where
  /-- `run` returned: `cpu_state` is not `OK`. -/
  | stopped (s : State)
  /-- The budget is used up and the machine is still `OK`. -/
  | running (s : State)
  /-- A step was refused. -/
  | refused (r : Refusal)
  deriving DecidableEq, Repr

/-- Step until `cpu_state` is not `OK`, at most `fuel` times. -/
def runLoop : Nat → State → RunOutcome
  | 0, s => if s.cpuState = .ok then .running s else .stopped s
  | fuel + 1, s =>
    if s.cpuState = .ok then
      match step s with
      | .next t => runLoop fuel t
      | .fault f => nomatch f
      | .refused r => .refused r
    else .stopped s

/-- `run()` under a budget; on a machine that is already stopped it makes one no-op step exactly if the
configuration says so (40_step_cycle.md R129; log 10). -/
def run (fuel : Nat) (s : State) : RunOutcome :=
  if s.cpuState = .ok ∨ s.cfg.runStepsWhenStopped = false then runLoop fuel s
  else
    match step s with
    | .next t => .stopped t
    | .fault f => nomatch f
    | .refused r => .refused r

/-! ### Commands (50_interfaces.md R200, R209, R214) -/

/-- What the host can ask of the machine between steps. -/
inductive Command where
  /-- `initialize(true)`, the port command `INIT_CLEAR`. -/
  | initClear
  /-- `initialize(false)` = `reset`, the port command `INIT_KEEP`. -/
  | initKeep
  /-- The hardware reset input. -/
  | powerOn
  | step
  /-- `run`, observed after at most `fuel` steps. -/
  | run (fuel : Nat)
  /-- `loadProgram`. -/
  | load (source : List Char)
  | setTrace (on : Bool)
  /-- An answer for a coming `In()`. -/
  | supplyInput (v : Word)
  deriving DecidableEq, Repr

/-- The state after a run. -/
def RunOutcome.toOutcome : RunOutcome → Host.Outcome State Fault Refusal
  | .stopped t => .next t
  | .running t => .next t
  | .refused r => .refused r

/-- The state after a load, successful or not. -/
def LoadOutcome.toOutcome : LoadOutcome → Host.Outcome State Fault Refusal
  | .loaded t => .next t
  | .failed _ t => .next t
  | .refused r => .refused r

/-- The machine after one operation of the host. -/
def command (c : Command) (s : State) : Host.Outcome State Fault Refusal :=
  match c with
  | .initClear => .next (s.initialise true)
  | .initKeep => .next s.resetKeep
  | .powerOn => .next s.powerOn
  | .step => step s
  | .run fuel => (run fuel s).toOutcome
  | .load source => (s.loadProgram source).toOutcome
  | .setTrace on => .next (s.setTrace on)
  | .supplyInput v => .next (s.supplyInput v)

end Sys2Proof.Machine
end

