-- ==== Sys2Proof/Machine/Ports.lean ====
section
/-! DEFINITION. The memory ports of the block in one step (50_interfaces.md R214, R215): which slot is
fetched and which data cell is read or written. The names and widths are the spec's own reading
(92_eei_decisions.md D11; log 17); the architectural effect of a step is Machine/Step.lean's. -/

namespace Sys2Proof.Machine

/-- One access on the data-memory port. -/
inductive DataAccess where
  /-- `dmem_addr` with the cell read on `dmem_rdata`. -/
  | load (a : Nat) (v : Word)
  /-- `dmem_addr` with `dmem_we` and `dmem_wdata`. -/
  | store (a : Nat) (v : Word)
  deriving DecidableEq, Repr

/-- What a step does on the memory ports. -/
structure Traffic where
  /-- `imem_addr` and `imem_rdata` of the fetch, if one is made. -/
  fetch : Option (Nat × InstrWord)
  /-- The data access, if one is made: at most one (20_memory.md R54). -/
  data : Option DataAccess
  deriving DecidableEq, Repr

/-- The data access an instruction makes in the state its body sees (43_load_store.md R160, R161). -/
def dataAccess (i : Instr) (s : State) : Option DataAccess :=
  match i with
  | .ld _ u t =>
    if inRange s.cfg (s.effAddr u t) then
      some (.load (cellIndex (s.effAddr u t)) (s.readData (cellIndex (s.effAddr u t))))
    else none
  | .st r u t =>
    if inRange s.cfg (s.effAddr u t) then
      some (.store (cellIndex (s.effAddr u t)) (s.reg r))
    else none
  | _ => none

/-- The traffic of the next step: none at all on a stopped machine or an out-of-range program counter
(50_interfaces.md R215). -/
def State.traffic (s : State) : Traffic :=
  if s.cfg.wf ∧ s.cpuState = .ok ∧ s.pcInRange = true then
    { fetch := some (cellIndex s.pc, s.fetchWord)
      data :=
        match decode s.fetchWord with
        | .instr i => dataAccess i (s.bodyStart i)
        | .illFormed _ => none }
  else { fetch := none, data := none }

end Sys2Proof.Machine
end

