-- ==== Sys2Proof/Safety.lean ====
section
/-! DEFINITION. The terms claims are stated in: the machine invariant, what a run that has ended was
(60_exceptions.md R243), the parts of the state a program can observe, and the frames. -/

namespace Sys2Proof.Machine

/-- What every machine that was built and loaded by its own operations satisfies: a legal capacity
(00_scope.md R5), both memories in canonical form inside `[0, CAP)` (20_memory.md R50), and a
well-formed instruction in every slot (10_state.md R30). -/
structure State.Inv (s : State) : Prop where
  capacity : s.cfg.wf
  dataForm : Memory.wf (dataReset s.cfg) s.dmem
  dataBound : Memory.within s.cfg.cap s.dmem
  slotForm : Memory.wf slotReset s.imem
  slotBound : Memory.within s.cfg.cap s.imem
  slots : ∀ p, wordWellFormed (s.readSlot p) = true

/-- How a machine stands (60_exceptions.md R243): HALTED is the only good end. -/
inductive Verdict where
  | running | finished | wentWrong
  deriving DecidableEq, Repr

/-- The verdict on a value of `cpu_state`. -/
def CpuState.verdict : CpuState → Verdict
  | .ok => .running
  | .halted => .finished
  | .divideByZero | .instructionFault | .dataFault => .wentWrong

/-- A run that ends went well: it ended in HALTED. -/
def RunOutcome.good : RunOutcome → Prop
  | .stopped s => s.cpuState.verdict = .finished
  | .running _ => False
  | .refused _ => False

/-- The architectural state, as the host reads it through the accessors (10_state.md R35): two states
agree on it when every register, data cell, instruction slot and `cpu_state` is equal. -/
structure SameArch (s t : State) : Prop where
  cfg : t.cfg = s.cfg
  regs : ∀ k, t.reg k = s.reg k
  data : ∀ a, t.readData a = s.readData a
  slots : ∀ p, t.readSlot p = s.readSlot p
  cpu : t.cpuState = s.cpuState
  trace : t.traceEnabled = s.traceEnabled

/-- The host's side is untouched: no answer used, no event made. -/
structure SameHost (s t : State) : Prop where
  inputs : t.inputs = s.inputs
  inputCount : t.inputCount = s.inputCount
  events : t.events = s.events

/-- Everything but the general registers is unchanged: the frame of an instruction that only writes
registers. -/
structure SameButRegs (s t : State) : Prop where
  cfg : t.cfg = s.cfg
  data : ∀ a, t.readData a = s.readData a
  slots : ∀ p, t.readSlot p = s.readSlot p
  cpu : t.cpuState = s.cpuState
  trace : t.traceEnabled = s.traceEnabled
  host : SameHost s t

/-- The frame of an instruction whose one destination is register `r`. -/
structure OnlyReg (r : RegIdx) (s t : State) : Prop where
  regs : ∀ k, k ≠ r → t.reg k = s.reg k
  rest : SameButRegs s t

/-- The frame of `raise f`: `cpu_state` is `f`, all else is unchanged (60_exceptions.md R233). -/
structure OnlyCpu (f : CpuState) (s t : State) : Prop where
  cpu : t.cpuState = f
  cfg : t.cfg = s.cfg
  regs : ∀ k, t.reg k = s.reg k
  data : ∀ a, t.readData a = s.readData a
  slots : ∀ p, t.readSlot p = s.readSlot p
  trace : t.traceEnabled = s.traceEnabled
  host : SameHost s t

/-- The frame of a store to cell `a`: that cell alone may change (43_load_store.md R161). -/
structure OnlyCell (a : Nat) (s t : State) : Prop where
  cfg : t.cfg = s.cfg
  regs : ∀ k, t.reg k = s.reg k
  data : ∀ b, b ≠ a → t.readData b = s.readData b
  slots : ∀ p, t.readSlot p = s.readSlot p
  cpu : t.cpuState = s.cpuState
  trace : t.traceEnabled = s.traceEnabled
  host : SameHost s t

/-- The frame of an event `e`: the host's side is as given, the machine itself is unchanged. -/
structure OnlyEvent (e : Event) (s t : State) : Prop where
  arch : SameArch s t
  inputs : t.inputs = s.inputs
  inputCount : t.inputCount = s.inputCount
  events : t.events = s.events ++ [e]

/-- The next step of `s` fetches and runs `i`: the capacity is legal, the gate is open, the program
counter is in range and the slot it names decodes to `i` (40_step_cycle.md R120, R122, R124). -/
structure Fetches (s : State) (i : Instr) : Prop where
  capacity : s.cfg.wf
  running : s.cpuState = .ok
  low : 0 ≤ s32 s.pc
  high : s32 s.pc < (s.cfg.cap : Int)
  decoded : decode (s.readSlot (s32 s.pc).toNat) = .instr i

/-- The `Trace` events a step that fetches `i` makes (40_step_cycle.md R124). -/
def traceEvents (s : State) (i : Instr) : List Event := if s.traceEnabled then [.trace i] else []

/-- The step of `s`, which fetches `i`, stops the machine with `f`: only `x[7]` is advanced, and the report
is the last event (60_exceptions.md R233, 40_step_cycle.md R128). -/
def StopsReporting (i : Instr) (f : CpuState) (s : State) : Prop :=
  ∃ t : State, step s = .next t ∧ t.cpuState = f ∧ s32 t.pc = s32 s.pc + 1 ∧
    (∀ k, k ≠ pcReg → t.reg k = s.reg k) ∧ (∀ a, t.readData a = s.readData a) ∧
    (∀ p, t.readSlot p = s.readSlot p) ∧ t.cfg = s.cfg ∧ t.traceEnabled = s.traceEnabled ∧
    t.inputs = s.inputs ∧ t.inputCount = s.inputCount ∧
    t.events = s.events ++ traceEvents s i ++ [.report f]

/-- The shape of a conditional jump `mk r d t` (45_branches.md R186): it always completes; `x[7]` becomes
the effective address of the literal and the base register exactly when the condition holds of the
tested register, and keeps its value otherwise; nothing else changes. -/
def JumpsWhen (mk : RegIdx → Word → RegIdx → Instr) (cond : Int → Prop) : Prop :=
  ∀ (r : RegIdx) (d : Word) (b : RegIdx) (s : State), ∃ t : State,
    exec (mk r d b) s = .next t ∧
    (cond (s32 (s.reg r)) → t.pc = s.effAddr d b) ∧
    (¬ cond (s32 (s.reg r)) → t.pc = s.pc) ∧
    OnlyReg pcReg s t

/-! ### Integer literals (30_encoding.md R85) -/

/-- The number a string of decimal digits writes: each digit counts ten to the number of digits after it. -/
def decimalValue : List Char → Nat
  | [] => 0
  | c :: cs => (c.toNat - '0'.toNat) * 10 ^ cs.length + decimalValue cs

/-- The text `cs` is an integer literal of value `n` (30_encoding.md R85, decision D16): an optional `-`,
one or more decimal digits and nothing else, and the value fits 32 signed bits. -/
def IsIntLiteral (cs : List Char) (n : Int) : Prop :=
  ∃ (negative : Bool) (ds : List Char), cs = (if negative then ['-'] else []) ++ ds ∧ ds ≠ [] ∧
    (∀ c ∈ ds, c ∈ "0123456789".toList) ∧
    n = (if negative then -(decimalValue ds : Int) else (decimalValue ds : Int)) ∧
    -2147483648 ≤ n ∧ n ≤ 2147483647

end Sys2Proof.Machine
end

