-- ==== Sys2Proof/Certificates/Slice0/Obligations.lean ====
section
/-! DEFINITION. The statements about the machine, from the numbered rules of spec/. Each docstring names
the rules; "D<n>" is the spec's own decision in 92_eei_decisions.md, "log <n>" the assumption log. The
spec's operands `r`, `s`, `t` are written `r`, `u`, `v` (register forms) and `r`, `d`, `b` (`d(b)` forms),
since `s` and `t` are states here. -/

open Sys2Proof Sys2Proof.Machine

/-! ### Reset, initialise, load -/

/-- The machine right after power-on reset (10_state.md section 6). The power-on state and the filler
HALT's operands are the spec's decisions D9 and D21 (log 8); the capacity 1024 is the spec's default,
taken for the reset machine by the model (log 1). -/
def Obligations.ResetLeavesSpecValues : Prop :=
  (∀ k, State.reset.reg k = 0) ∧ s32 (State.reset.readData 0) = 1023 ∧
    (∀ a, a ≠ 0 → State.reset.readData a = 0) ∧
    (∀ p, decode (State.reset.readSlot p) = .instr (.halt 0 0 0)) ∧
    State.reset.cpuState = .ok ∧ State.reset.traceEnabled = false ∧ State.reset.cfg.cap = 1024

/-- `initialize(clear_program)` from any state (70_reset_and_hazards.md R260). R260 writes HALT with the
operands 0,0,0 and keeps the trace flag; behind it stand the spec's decisions D21 and D10 (log 8). -/
def Obligations.InitialiseGivesResetValues : Prop :=
  ∀ (s : State) (clear : Bool), s.cfg.wf →
    (∀ k, (s.initialise clear).reg k = 0) ∧
    s32 ((s.initialise clear).readData 0) = (s.cfg.cap : Int) - 1 ∧
    (∀ a, a ≠ 0 → (s.initialise clear).readData a = 0) ∧
    (s.initialise clear).cpuState = .ok ∧
    (clear = true → ∀ p, decode ((s.initialise clear).readSlot p) = .instr (.halt 0 0 0)) ∧
    (clear = false → ∀ p, (s.initialise clear).readSlot p = s.readSlot p) ∧
    (s.initialise clear).traceEnabled = s.traceEnabled ∧ (s.initialise clear).cfg = s.cfg

/-- `reset()` keeps the program exactly and resets the rest (70_reset_and_hazards.md R261). -/
def Obligations.ResetKeepsTheProgram : Prop :=
  ∀ s : State, s.cfg.wf →
    (∀ p, s.resetKeep.readSlot p = s.readSlot p) ∧ (∀ k, s.resetKeep.reg k = 0) ∧
    s32 (s.resetKeep.readData 0) = (s.cfg.cap : Int) - 1 ∧
    (∀ a, a ≠ 0 → s.resetKeep.readData a = 0) ∧ s.resetKeep.cpuState = .ok

/-- A machine that was only initialised halts at its first step with `x[7] = 1`
(70_reset_and_hazards.md section 2; the HALT in slot 0 is 10_state.md's section 6). -/
def Obligations.InitialisedMachineHaltsAtOnce : Prop :=
  ∀ s : State, s.cfg.wf → ∃ t, step (s.initialise true) = .next t ∧ t.cpuState = .halted ∧
    s32 t.pc = 1 ∧ (∀ k, k ≠ pcReg → t.reg k = 0)

/-- Only initialize, reset, loadProgram and power-on bring a stopped machine back to `OK`, and each of them
does (70_reset_and_hazards.md section 1). That power-on is an `initialize(true)` is the spec's decision
D9 (log 8). -/
def Obligations.OnlyRestartsReturnToOk : Prop :=
  (∀ (c : Command) (s t : State), command c s = .next t → s.cpuState ≠ .ok → t.cpuState = .ok →
    c = .initClear ∨ c = .initKeep ∨ c = .powerOn ∨ ∃ src, c = .load src) ∧
  (∀ s t : State, command .initClear s = .next t ∨ command .initKeep s = .next t ∨
    command .powerOn s = .next t ∨ (∃ src, command (.load src) s = .next t) → t.cpuState = .ok)

/-- A successful `loadProgram` (30_encoding.md Part D, the loader): every line decodes or is discarded, the
k-th decoded line is in slot k, every other slot holds HALT, and the machine is in its reset state. The
filler's operands 0,0,0 and the kept trace flag are the spec's decisions D21 and D10 (log 8). -/
def Obligations.LoadPlacesTheProgram : Prop :=
  ∀ (s t : State) (src : List Char), s.cfg.wf → s.loadProgram src = .loaded t →
    (∀ l ∈ sourceLines src, ∀ e, decodeLine l ≠ .error e) ∧
    (∃ is : List Instr,
      is.map LineResult.instr =
        ((sourceLines src).map decodeLine).filter (fun x => decide (x ≠ .discarded)) ∧
      is.length ≤ s.cfg.cap ∧
      (∀ (k : Nat) (h : k < is.length), decode (t.readSlot k) = .instr is[k]) ∧
      (∀ k, is.length ≤ k → decode (t.readSlot k) = .instr (.halt 0 0 0))) ∧
    t.pc = 0 ∧ (∀ k, t.reg k = 0) ∧ s32 (t.readData 0) = (s.cfg.cap : Int) - 1 ∧
    (∀ a, a ≠ 0 → t.readData a = 0) ∧ t.cpuState = .ok ∧ t.cfg = s.cfg ∧
    t.traceEnabled = s.traceEnabled

/-- A failed `loadProgram` (30_encoding.md Part D): the first bad line is reported with its 1-based number
and its raw text, and the machine is left in its reset state with every slot HALT. The HALT in every slot
is the spec's decision D22 and the error of a line without a slot D19 (log 12); the filler's operands
0,0,0 and the kept trace flag are D21 and D10 (log 8). -/
def Obligations.FailedLoadReportsAndClears : Prop :=
  ∀ (s t : State) (src : List Char) (e : LoadError), s.loadProgram src = .failed e t →
    (∃ before after : List (List Char), sourceLines src = before ++ e.raw :: after ∧
      e.line = before.length + 1 ∧ (∀ l ∈ before, ∀ x, decodeLine l ≠ .error x) ∧
      (decodeLine e.raw = .error e.what ∨
        (e.what = .invalidInstruction ∧ (∃ i, decodeLine e.raw = .instr i) ∧
          ((before.map decodeLine).filter (fun x => decide (x ≠ .discarded))).length = s.cfg.cap))) ∧
    (∀ k, t.reg k = 0) ∧ (∀ p, decode (t.readSlot p) = .instr (.halt 0 0 0)) ∧ t.cpuState = .ok ∧
    (s.cfg.wf → s32 (t.readData 0) = (s.cfg.cap : Int) - 1) ∧ (∀ a, a ≠ 0 → t.readData a = 0) ∧
    t.cfg = s.cfg ∧ t.traceEnabled = s.traceEnabled

/-! ### The step cycle -/

/-- Stepping a stopped machine makes the one event `Report` and changes nothing (40_step_cycle.md R121). -/
def Obligations.StoppedStepOnlyReports : Prop :=
  ∀ s : State, s.cfg.wf → s.cpuState ≠ .ok →
    ∃ t, step s = .next t ∧ OnlyEvent (.report s.cpuState) s t

/-- A stopped machine stays as it is under any number of steps, one report each (40_step_cycle.md
section 1, 60_exceptions.md section 2). -/
def Obligations.StoppedMachineStaysStopped : Prop :=
  ∀ (n : Nat) (s : State), s.cfg.wf → s.cpuState ≠ .ok →
    ∃ t : State, Host.Core.run Sys2Proof.core n s = .next t ∧ SameArch s t ∧
      t.events = s.events ++ List.replicate n (.report s.cpuState)

/-- The fetch check (20_memory.md R56): on the signed program counter; out of range nothing executes and
only `cpu_state` changes; in range the slot it names is fetched and its instruction executed. -/
def Obligations.FetchAddressIsChecked : Prop :=
  ∀ s : State, s.cfg.wf → s.cpuState = .ok →
    ((s32 s.pc < 0 ∨ (s.cfg.cap : Int) ≤ s32 s.pc) →
      ∃ t, step s = .next t ∧ t.cpuState = .instructionFault ∧ (∀ k, t.reg k = s.reg k) ∧
        (∀ a, t.readData a = s.readData a) ∧ (∀ p, t.readSlot p = s.readSlot p)) ∧
    (∀ i, 0 ≤ s32 s.pc → s32 s.pc < (s.cfg.cap : Int) →
      decode (s.readSlot (s32 s.pc).toNat) = .instr i →
      step s = endStep (exec i (s.bodyStart i)))

/-- The step that fails the fetch check reports once and traces nothing (40_step_cycle.md section 2; the
report is the spec's resolution 90_conflicts.md C6 and decision D29, log 9). -/
def Obligations.FetchFaultReportsOnce : Prop :=
  ∀ s : State, s.cfg.wf → s.cpuState = .ok → (s32 s.pc < 0 ∨ (s.cfg.cap : Int) ≤ s32 s.pc) →
    ∃ t, step s = .next t ∧ t.events = s.events ++ [.report .instructionFault] ∧
      t.inputs = s.inputs ∧ t.inputCount = s.inputCount ∧ t.traceEnabled = s.traceEnabled ∧
      t.cfg = s.cfg

/-- A step runs the decoded instruction (40_step_cycle.md sections 2 to 4): the body starts in the state
that differs only by the advance of `x[7]` and the trace event, and the report follows it. -/
def Obligations.StepRunsTheDecodedInstruction : Prop :=
  ∀ (s : State) (i : Instr), Fetches s i →
    step s = endStep (exec i (s.bodyStart i)) ∧
    (s.bodyStart i).pc = w32 (s32 s.pc + 1) ∧
    (∀ k, k ≠ pcReg → (s.bodyStart i).reg k = s.reg k) ∧
    (∀ a, (s.bodyStart i).readData a = s.readData a) ∧
    (∀ p, (s.bodyStart i).readSlot p = s.readSlot p) ∧
    (s.bodyStart i).cfg = s.cfg ∧ (s.bodyStart i).cpuState = s.cpuState ∧
    (s.bodyStart i).traceEnabled = s.traceEnabled ∧ (s.bodyStart i).inputs = s.inputs ∧
    (s.bodyStart i).inputCount = s.inputCount ∧
    (s.bodyStart i).events = s.events ++ traceEvents s i ∧
    (∀ t, exec i (s.bodyStart i) = .next t → t.cpuState = .ok → step s = .next t) ∧
    (∀ t, exec i (s.bodyStart i) = .next t → t.cpuState ≠ .ok →
      step s = .next (t.emit (.report t.cpuState)))

/-- The advance (40_step_cycle.md R123): the body sees `x[7] = p + 1` without overflow, whatever the
instruction, and an instruction that halts or faults leaves it there. -/
def Obligations.AdvancePrecedesTheBody : Prop :=
  ∀ (s : State) (i : Instr), Fetches s i →
    (s.bodyStart i).pc = w32 (s32 s.pc + 1) ∧ s32 (s.bodyStart i).pc = s32 s.pc + 1 ∧
    (∀ t, step s = .next t → t.cpuState ≠ .ok → t.pc = w32 (s32 s.pc + 1))

/-- `raise F` (60_exceptions.md R233): an instruction that stops the machine has changed nothing but
`x[7]`, by the advance, and `cpu_state`; the report ends the step. The same holds of HALT. -/
def Obligations.StoppingStepOnlyAdvances : Prop :=
  ∀ (s t : State) (i : Instr), Fetches s i → step s = .next t → t.cpuState ≠ .ok →
    StopsReporting i t.cpuState s

/-- The events of a step, in order: the trace, the instruction's own event, the report
(40_step_cycle.md sections 2, 4 and 5; decisions D13 and D30, log 9; the word of an IN is log 2's). -/
def Obligations.EventsOfAStepInOrder : Prop :=
  ∀ (s t : State) (i : Instr), Fetches s i → step s = .next t →
    t.events = s.events ++ traceEvents s i ++
      (match i with
      | .inp _ _ _ => [.input s.nextInput]
      | .out r _ _ => [.output ((s.bodyStart i).reg r)]
      | _ => []) ++
      (if t.cpuState = .ok then [] else [.report t.cpuState])

/-- Forms that name register 7 (40_step_cycle.md section 5), in slot `p`: `ADD r,7,7`, `ST 7,d(b)` and
`LDA r,d(7)` read `p + 1`, and so does the test of `JEQ 7,d(b)`, which never jumps; `LDA 7,d(7)` and
`LDC 7,d(b)` are control transfers. That the sums of LDA and of ST's address wrap is the spec's decision
D7 (log 6). -/
def Obligations.RegisterSevenIsTheNextSlot : Prop :=
  ∀ (s : State) (r b : RegIdx) (d : Word),
    (r ≠ pcReg → Fetches s (.add r pcReg pcReg) →
      ∃ t, step s = .next t ∧ t.cpuState = .ok ∧ t.pc = w32 (s32 s.pc + 1) ∧
        (u32 (t.reg r) : Int) = (2 * (s32 s.pc + 1)) % 4294967296) ∧
    (Fetches s (.st pcReg d b) → 0 ≤ s32 ((s.bodyStart (.st pcReg d b)).effAddr d b) →
      s32 ((s.bodyStart (.st pcReg d b)).effAddr d b) < (s.cfg.cap : Int) →
      ∃ t, step s = .next t ∧ t.cpuState = .ok ∧ t.pc = w32 (s32 s.pc + 1) ∧
        s32 (t.readData (s32 ((s.bodyStart (.st pcReg d b)).effAddr d b)).toNat) = s32 s.pc + 1) ∧
    (r ≠ pcReg → Fetches s (.lda r d pcReg) →
      ∃ t, step s = .next t ∧ t.cpuState = .ok ∧ t.pc = w32 (s32 s.pc + 1) ∧
        (u32 (t.reg r) : Int) = (s32 s.pc + 1 + s32 d) % 4294967296) ∧
    (Fetches s (.jeq pcReg d b) →
      ∃ t, step s = .next t ∧ t.cpuState = .ok ∧ t.pc = w32 (s32 s.pc + 1)) ∧
    (Fetches s (.lda pcReg d pcReg) → ∃ t, step s = .next t ∧ t.cpuState = .ok ∧
      (u32 t.pc : Int) = (s32 s.pc + 1 + s32 d) % 4294967296) ∧
    (Fetches s (.ldc pcReg d b) → ∃ t, step s = .next t ∧ t.cpuState = .ok ∧ t.pc = d)

/-- An ill-formed word and an illegal capacity get no step; no value of `cpu_state` stands for them
(30_encoding.md Part B, 92_eei_decisions.md D4, D6; logs 1 and 4). -/
def Obligations.IllFormedWordGetsNoStep : Prop :=
  (∀ (s : State) (why : IllFormed), s.cfg.wf → s.cpuState = .ok → 0 ≤ s32 s.pc →
    s32 s.pc < (s.cfg.cap : Int) →
    decode (s.readSlot (s32 s.pc).toNat) = .illFormed why →
    step s = .refused (.illFormedWord (s.readSlot (s32 s.pc).toNat))) ∧
  (∀ s : State, ¬ s.cfg.wf → step s = .refused (.capacityOutOfRange s.cfg.cap))

/-- `run` (40_step_cycle.md section 6). From a running machine it returns the first stopped state of the
step sequence, and reports to be still running only if every state so far was `OK`; it returns as soon
as the sequence reaches a stopped state within the budget, and under the invariant it always answers one
of the two. On a stopped machine it changes nothing and makes one report or none, as the parameter says
(left open by D14; log 10). -/
def Obligations.RunEndsAtTheFirstStop : Prop :=
  (∀ (fuel : Nat) (s t : State), s.cpuState = .ok →
    (run fuel s = .stopped t → t.cpuState ≠ .ok ∧
      ∃ n, n ≤ fuel ∧ Host.Core.run Sys2Proof.core n s = .next t ∧
        ∀ m, m < n → ∃ q : State, Host.Core.run Sys2Proof.core m s = .next q ∧ q.cpuState = .ok) ∧
    (run fuel s = .running t → Host.Core.run Sys2Proof.core fuel s = .next t ∧
      ∀ m, m ≤ fuel → ∃ q : State, Host.Core.run Sys2Proof.core m s = .next q ∧ q.cpuState = .ok)) ∧
  (∀ (fuel n : Nat) (s q : State), s.cpuState = .ok → n ≤ fuel →
    Host.Core.run Sys2Proof.core n s = .next q → q.cpuState ≠ .ok →
    ∃ t, run fuel s = .stopped t) ∧
  (∀ (fuel : Nat) (s : State), s.Inv →
    (∃ t, run fuel s = .stopped t) ∨ (∃ t, run fuel s = .running t)) ∧
  (∀ (fuel : Nat) (s : State), s.cfg.wf → s.cpuState ≠ .ok →
    ∃ t, run fuel s = .stopped t ∧ SameArch s t ∧
      t.events = s.events ++
        (if s.cfg.runStepsWhenStopped = true then [.report s.cpuState] else []))

/-! ### HALT, IN, OUT -/

/-- HALT (41_halt_io.md R140). -/
def Obligations.HaltStopsTheMachine : Prop :=
  ∀ (r u v : RegIdx) (s : State),
    (∃ t, exec (.halt r u v) s = .next t ∧ OnlyCpu .halted s t) ∧
    (Fetches s (.halt r u v) → StopsReporting (.halt r u v) .halted s)

/-- IN (41_halt_io.md, IN): always completes; some word is received, stored in `x[r]` and recorded as the
`In` event. Which word: the host's next listed answer, else a free one (decision D12; log 2). -/
def Obligations.InStoresTheHostsWord : Prop :=
  ∀ (r u v : RegIdx) (s : State), ∃ (t : State) (w : Word),
    exec (.inp r u v) s = .next t ∧ t.reg r = w ∧ (∀ k, k ≠ r → t.reg k = s.reg k) ∧
    (∀ x rest, s.inputs = x :: rest → w = x ∧ t.inputs = rest) ∧
    (s.inputs = [] → t.inputs = []) ∧ t.inputCount = s.inputCount + 1 ∧
    t.events = s.events ++ [.input w] ∧ t.cfg = s.cfg ∧ t.cpuState = s.cpuState ∧
    t.traceEnabled = s.traceEnabled ∧ (∀ a, t.readData a = s.readData a) ∧
    (∀ p, t.readSlot p = s.readSlot p)

/-- OUT (41_halt_io.md R142). -/
def Obligations.OutReportsTheRegister : Prop :=
  ∀ (r u v : RegIdx) (s : State), ∃ t,
    exec (.out r u v) s = .next t ∧ OnlyEvent (.output (s.reg r)) s t

/-! ### ADD, SUB, MUL, DIV -/

/-- ADD (42_arithmetic.md R150). -/
def Obligations.AddWrapsTheExactSum : Prop :=
  ∀ (r u v : RegIdx) (s : State), ∃ t, exec (.add r u v) s = .next t ∧
    (u32 (t.reg r) : Int) = (s32 (s.reg u) + s32 (s.reg v)) % 4294967296 ∧ OnlyReg r s t

/-- SUB (42_arithmetic.md R151). -/
def Obligations.SubWrapsTheExactDifference : Prop :=
  ∀ (r u v : RegIdx) (s : State), ∃ t, exec (.sub r u v) s = .next t ∧
    (u32 (t.reg r) : Int) = (s32 (s.reg u) - s32 (s.reg v)) % 4294967296 ∧ OnlyReg r s t

/-- MUL (42_arithmetic.md R152): the low 32 bits of the exact product, signed or unsigned. -/
def Obligations.MulKeepsTheLowHalf : Prop :=
  ∀ (r u v : RegIdx) (s : State), ∃ t, exec (.mul r u v) s = .next t ∧
    (u32 (t.reg r) : Int) = (s32 (s.reg u) * s32 (s.reg v)) % 4294967296 ∧
    u32 (t.reg r) = (u32 (s.reg u) * u32 (s.reg v)) % 4294967296 ∧ OnlyReg r s t

/-- DIV (42_arithmetic.md R153): a zero divisor raises DIVIDE_BY_ZERO and writes no register; otherwise the
quotient rounded toward zero, narrowed to a word. -/
def Obligations.DivQuotientOrFault : Prop :=
  ∀ (r u v : RegIdx) (s : State),
    (s32 (s.reg v) = 0 →
      ∃ t, exec (.div r u v) s = .next t ∧ OnlyCpu .divideByZero s t) ∧
    (s32 (s.reg v) ≠ 0 → ∃ t, exec (.div r u v) s = .next t ∧ OnlyReg r s t ∧
      (u32 (t.reg r) : Int) =
        ((s32 (s.reg u)).sign * (s32 (s.reg v)).sign *
          (((s32 (s.reg u)).natAbs / (s32 (s.reg v)).natAbs : Nat) : Int)) % 4294967296) ∧
    (Fetches s (.div r u v) → s32 ((s.bodyStart (.div r u v)).reg v) = 0 →
      StopsReporting (.div r u v) .divideByZero s)

/-- Division rounds toward zero (42_arithmetic.md R155): but for the one overflow, the signed quotient is
`sign(n) * sign(d) * floor(|n| / |d|)` and the remainder is zero or has the sign of the dividend. -/
def Obligations.DivRoundsTowardZero : Prop :=
  ∀ (r u v : RegIdx) (s : State), s32 (s.reg v) ≠ 0 →
    ¬ (s32 (s.reg u) = -2147483648 ∧ s32 (s.reg v) = -1) →
    ∃ t, exec (.div r u v) s = .next t ∧
      s32 (t.reg r) = (s32 (s.reg u)).sign * (s32 (s.reg v)).sign *
        (((s32 (s.reg u)).natAbs / (s32 (s.reg v)).natAbs : Nat) : Int) ∧
      (s32 (s.reg u) - s32 (t.reg r) * s32 (s.reg v) = 0 ∨
        (s32 (s.reg u) - s32 (t.reg r) * s32 (s.reg v)).sign = (s32 (s.reg u)).sign) ∧
      (s32 (s.reg u) - s32 (t.reg r) * s32 (s.reg v)).natAbs < (s32 (s.reg v)).natAbs

/-- `INT32_MIN / -1` gives `INT32_MIN` and no fault: the spec's decision D8 (42_arithmetic.md, integer laws;
log 7). -/
def Obligations.DivOverflowWraps : Prop :=
  ∀ (r u v : RegIdx) (s : State), s32 (s.reg u) = -2147483648 → s32 (s.reg v) = -1 →
    ∃ t, exec (.div r u v) s = .next t ∧ s32 (t.reg r) = -2147483648 ∧ OnlyReg r s t

/-! ### Loads, stores, addresses and constants -/

/-- The effective address (40_step_cycle.md section 3): the sum of the literal and the base register modulo
`2^32`; exact when it fits. That it wraps is the spec's decision D7 (log 6). -/
def Obligations.EffectiveAddressWraps : Prop :=
  ∀ (s : State) (d : Word) (b : RegIdx),
    (u32 (s.effAddr d b) : Int) = (s32 d + s32 (s.reg b)) % 4294967296 ∧
    (-2147483648 ≤ s32 d + s32 (s.reg b) → s32 d + s32 (s.reg b) ≤ 2147483647 →
      s32 (s.effAddr d b) = s32 d + s32 (s.reg b))

/-- LD (43_load_store.md R160). -/
def Obligations.LoadReadsTheCellOrFaults : Prop :=
  ∀ (r b : RegIdx) (d : Word) (s : State),
    (0 ≤ s32 (s.effAddr d b) → s32 (s.effAddr d b) < (s.cfg.cap : Int) →
      ∃ t, exec (.ld r d b) s = .next t ∧
        t.reg r = s.readData (s32 (s.effAddr d b)).toNat ∧ OnlyReg r s t) ∧
    (s32 (s.effAddr d b) < 0 ∨ (s.cfg.cap : Int) ≤ s32 (s.effAddr d b) →
      ∃ t, exec (.ld r d b) s = .next t ∧ OnlyCpu .dataFault s t) ∧
    (Fetches s (.ld r d b) →
      (s32 ((s.bodyStart (.ld r d b)).effAddr d b) < 0 ∨
        (s.cfg.cap : Int) ≤ s32 ((s.bodyStart (.ld r d b)).effAddr d b)) →
      StopsReporting (.ld r d b) .dataFault s)

/-- ST (43_load_store.md R161): the cell of the effective address takes `x[r]`, every other cell and every
register is unchanged; out of range nothing is written. -/
def Obligations.StoreWritesTheCellOrFaults : Prop :=
  ∀ (r b : RegIdx) (d : Word) (s : State),
    (0 ≤ s32 (s.effAddr d b) → s32 (s.effAddr d b) < (s.cfg.cap : Int) →
      ∃ t, exec (.st r d b) s = .next t ∧
        t.readData (s32 (s.effAddr d b)).toNat = s.reg r ∧
        OnlyCell (s32 (s.effAddr d b)).toNat s t) ∧
    (s32 (s.effAddr d b) < 0 ∨ (s.cfg.cap : Int) ≤ s32 (s.effAddr d b) →
      ∃ t, exec (.st r d b) s = .next t ∧ OnlyCpu .dataFault s t) ∧
    (Fetches s (.st r d b) →
      (s32 ((s.bodyStart (.st r d b)).effAddr d b) < 0 ∨
        (s.cfg.cap : Int) ≤ s32 ((s.bodyStart (.st r d b)).effAddr d b)) →
      StopsReporting (.st r d b) .dataFault s)

/-- LDA (44_load_address_constant.md R170): the effective address, no bounds check, no fault. R170 says the
sum wraps; that is decision D7 (log 6). -/
def Obligations.LdaWritesTheAddress : Prop :=
  ∀ (r b : RegIdx) (d : Word) (s : State), ∃ t, exec (.lda r d b) s = .next t ∧
    (u32 (t.reg r) : Int) = (s32 d + s32 (s.reg b)) % 4294967296 ∧ OnlyReg r s t

/-- LDC (44_load_address_constant.md R171): the literal; the third operand changes nothing. -/
def Obligations.LdcWritesTheLiteral : Prop :=
  ∀ (r b : RegIdx) (d : Word) (s : State), ∃ t, exec (.ldc r d b) s = .next t ∧
    t.reg r = d ∧ OnlyReg r s t ∧ ∀ b' : RegIdx, exec (.ldc r d b') s = .next t

/-! ### Jumps (45_branches.md; the shape `JumpsWhen` is R186's) -/

/-- JLT (45_branches.md R180). -/
def Obligations.JltJumpsWhenNegative : Prop := JumpsWhen .jlt (fun n => n < 0)

/-- JLE (45_branches.md R181). -/
def Obligations.JleJumpsWhenNotPositive : Prop := JumpsWhen .jle (fun n => n ≤ 0)

/-- JGT (45_branches.md R182). -/
def Obligations.JgtJumpsWhenPositive : Prop := JumpsWhen .jgt (fun n => n > 0)

/-- JGE (45_branches.md R183). -/
def Obligations.JgeJumpsWhenNotNegative : Prop := JumpsWhen .jge (fun n => n ≥ 0)

/-- JEQ (45_branches.md R184). -/
def Obligations.JeqJumpsWhenZero : Prop := JumpsWhen .jeq (fun n => n = 0)

/-- JNE (45_branches.md R185). -/
def Obligations.JneJumpsWhenNotZero : Prop := JumpsWhen .jne (fun n => n ≠ 0)

/-- A jump with base register 7 is relative to the next slot, and its target is not checked when written
(45_branches.md, target and fall-through): `JNE r,d(7)` in slot `p`. -/
def Obligations.JumpIsRelativeToNextSlot : Prop :=
  ∀ (s : State) (r : RegIdx) (d : Word), Fetches s (.jne r d pcReg) → r ≠ pcReg →
    (s32 (s.reg r) ≠ 0 → ∃ t, step s = .next t ∧ t.cpuState = .ok ∧
      (u32 t.pc : Int) = (s32 s.pc + 1 + s32 d) % 4294967296) ∧
    (s32 (s.reg r) = 0 → ∃ t, step s = .next t ∧ t.cpuState = .ok ∧ s32 t.pc = s32 s.pc + 1)

/-- Testing register 7 itself (45_branches.md, last rule): it holds `p + 1 >= 1`, so JGT, JGE, JNE always
jump and JLT, JLE, JEQ never do. -/
def Obligations.TestingRegisterSevenIsConstant : Prop :=
  ∀ (s : State) (d : Word) (b : RegIdx),
    (∀ i, i = .jgt pcReg d b ∨ i = .jge pcReg d b ∨ i = .jne pcReg d b → Fetches s i →
      ∃ t, step s = .next t ∧ t.pc = (s.bodyStart i).effAddr d b) ∧
    (∀ i, i = .jlt pcReg d b ∨ i = .jle pcReg d b ∨ i = .jeq pcReg d b → Fetches s i →
      ∃ t, step s = .next t ∧ s32 t.pc = s32 s.pc + 1)

/-! ### The whole machine -/

/-- The machine right after reset satisfies the invariant. -/
def Obligations.ResetMeetsTheInvariant : Prop := State.reset.Inv

/-- Every step keeps the invariant: legal capacity, canonical memories inside `[0, CAP)`, a well-formed
instruction in every slot (10_state.md sections 3 and 4, 20_memory.md sections 1 and 3). -/
def Obligations.StepKeepsTheInvariant : Prop :=
  ∀ s t : State, s.Inv → step s = .next t → t.Inv

/-- On a machine that satisfies the invariant the step is total: it always answers a next state
(40_step_cycle.md section 4, 10_state.md section 4). -/
def Obligations.InvariantMachineAlwaysSteps : Prop :=
  ∀ s : State, s.Inv → ∃ t, step s = .next t

/-- Every operation of the host, loading any text among them, keeps the invariant
(50_interfaces.md Part A, 30_encoding.md Part D). -/
def Obligations.EveryCommandKeepsTheInvariant : Prop :=
  ∀ (c : Command) (s t : State), s.Inv → command c s = .next t → t.Inv

/-- Instruction memory changes only by `initialize(true)`, power-on and loading; the capacity never
(10_state.md section 4, 20_memory.md section 6, 00_scope.md section 3). -/
def Obligations.OnlyClearAndLoadChangeTheProgram : Prop :=
  ∀ (c : Command) (s t : State), command c s = .next t → t.cfg = s.cfg ∧
    ((∃ p, t.readSlot p ≠ s.readSlot p) →
      c = .initClear ∨ c = .powerOn ∨ ∃ src, c = .load src)

/-- Only a step that executes ST changes a data cell, the one it addresses, and puts `x[r]` there
(10_state.md section 3, 20_memory.md sections 1 and 2). -/
def Obligations.OnlyStoreChangesDataMemory : Prop :=
  ∀ (s t : State) (a : Nat), step s = .next t → t.readData a ≠ s.readData a →
    ∃ (r b : RegIdx) (d : Word), Fetches s (.st r d b) ∧
      s32 ((s.bodyStart (.st r d b)).effAddr d b) = (a : Int) ∧
      t.readData a = (s.bodyStart (.st r d b)).reg r

/-- The transitions of `cpu_state` in a step and in the host's restarts (60_exceptions.md R231). -/
def Obligations.CpuStateFollowsTheTable : Prop :=
  (∀ s t : State, step s = .next t →
    (s.cpuState ≠ .ok → t.cpuState = s.cpuState) ∧
    (s.cpuState = .ok → s32 s.pc < 0 ∨ (s.cfg.cap : Int) ≤ s32 s.pc →
      t.cpuState = .instructionFault) ∧
    (∀ i, Fetches s i →
      t.cpuState ≠ .instructionFault ∧
      (t.cpuState = .halted ↔ ∃ r u v, i = .halt r u v) ∧
      (t.cpuState = .divideByZero ↔
        ∃ r u v, i = .div r u v ∧ s32 ((s.bodyStart i).reg v) = 0) ∧
      (t.cpuState = .dataFault ↔ ∃ r d b, (i = .ld r d b ∨ i = .st r d b) ∧
        (s32 ((s.bodyStart i).effAddr d b) < 0 ∨
          (s.cfg.cap : Int) ≤ s32 ((s.bodyStart i).effAddr d b))))) ∧
  (∀ s : State, (s.initialise true).cpuState = .ok ∧ (s.initialise false).cpuState = .ok ∧
    (∀ src t, s.loadProgram src = .loaded t → t.cpuState = .ok) ∧
    (∀ src e t, s.loadProgram src = .failed e t → t.cpuState = .ok))

/-- The trace flag is purely observational (10_state.md section 5): the same run with the flag set
otherwise reaches the same registers, memories, `cpu_state`, inputs used and outputs made. That the two
runs get the same words from the host, where no answer is listed, is the model's choice: `freeInput` is
one function of the count (log 2). -/
def Obligations.TraceFlagIsObservational : Prop :=
  ∀ (n : Nat) (s t : State) (on : Bool), Host.Core.run Sys2Proof.core n s = .next t →
    ∃ q : State, Host.Core.run Sys2Proof.core n (s.setTrace on) = .next q ∧
      q.cfg = t.cfg ∧ (∀ k, q.reg k = t.reg k) ∧ (∀ a, q.readData a = t.readData a) ∧
      (∀ p, q.readSlot p = t.readSlot p) ∧ q.cpuState = t.cpuState ∧ q.traceEnabled = on ∧
      q.inputs = t.inputs ∧ q.inputCount = t.inputCount ∧ q.outputs = t.outputs

/-- A data cell keeps its value for as long as no executed ST addresses it (20_memory.md section 6): the
half of "every LD returns the value of the most recent ST" that spans several steps; the other half
is `StoreWritesTheCellOrFaults` and `LoadReadsTheCellOrFaults`. -/
def Obligations.CellKeepsItsValueUntilStored : Prop :=
  ∀ (n : Nat) (s t : State) (a : Nat), Host.Core.run Sys2Proof.core n s = .next t →
    (∀ (m : Nat) (q : State), m < n → Host.Core.run Sys2Proof.core m s = .next q →
      ∀ (r b : RegIdx) (d : Word), Fetches q (.st r d b) →
        s32 ((q.bodyStart (.st r d b)).effAddr d b) ≠ (a : Int)) →
    t.readData a = s.readData a

/-- The memory ports of a step agree with its effect (50_interfaces.md Part B; D11, log 17): exactly one
fetch when the step passes the fetch check, none otherwise. A fetched LD or ST whose address is in range
shows its load or store, and nothing else shows one; data memory changes just as the store port says. -/
def Obligations.PortsAgreeWithTheStep : Prop :=
  ∀ s t : State, step s = .next t →
    (s.traffic.fetch = if s.cpuState = .ok ∧ 0 ≤ s32 s.pc ∧ s32 s.pc < (s.cfg.cap : Int)
      then some ((s32 s.pc).toNat, s.readSlot (s32 s.pc).toNat) else none) ∧
    (s.traffic.fetch = none → s.traffic.data = none) ∧
    (∀ (r b : RegIdx) (d : Word) (a : Nat), Fetches s (.ld r d b) → a < s.cfg.cap →
      s32 ((s.bodyStart (.ld r d b)).effAddr d b) = (a : Int) →
      s.traffic.data = some (.load a (s.readData a))) ∧
    (∀ (r b : RegIdx) (d : Word) (a : Nat), Fetches s (.st r d b) → a < s.cfg.cap →
      s32 ((s.bodyStart (.st r d b)).effAddr d b) = (a : Int) →
      s.traffic.data = some (.store a ((s.bodyStart (.st r d b)).reg r))) ∧
    (∀ a v, s.traffic.data = some (.load a v) → a < s.cfg.cap ∧ v = s.readData a ∧
      ∃ (r b : RegIdx) (d : Word), Fetches s (.ld r d b) ∧
        s32 ((s.bodyStart (.ld r d b)).effAddr d b) = (a : Int)) ∧
    (∀ a v, s.traffic.data = some (.store a v) → a < s.cfg.cap ∧
      ∃ (r b : RegIdx) (d : Word), Fetches s (.st r d b) ∧
        s32 ((s.bodyStart (.st r d b)).effAddr d b) = (a : Int)) ∧
    (∀ b, t.readData b =
      (match s.traffic.data with
      | some (.store a v) => if b = a then v else s.readData b
      | _ => s.readData b))

/-! ### Encoding and text -/

/-- Every instruction, with every operand at every value, is read back from its word (30_encoding.md
Part B; the word is the spec's decision D2). -/
def Obligations.DecodeReadsBackEncode : Prop := ∀ i : Instr, decode (encode i) = .instr i

/-- Each well-formed word is the word of the one instruction it decodes to (30_encoding.md Part B). -/
def Obligations.EncodeReadsBackDecode : Prop :=
  ∀ (w : InstrWord) (i : Instr), decode w = .instr i → encode i = w

/-- The decoder accepts exactly the well-formed words (30_encoding.md Part B, decision D4, log 4):
opcode number at most 16, `r` and `t` in `[0, 8)`, and `s` too when the number is at most 6. -/
def Obligations.DecoderAcceptsExactlyWellFormed : Prop :=
  ∀ w : InstrWord, (∃ i, decode w = .instr i) ↔
    (w.extractLsb' 96 5).toNat ≤ 16 ∧
    (0 ≤ s32 (w.extractLsb' 64 32) ∧ s32 (w.extractLsb' 64 32) < 8) ∧
    (0 ≤ s32 (w.extractLsb' 0 32) ∧ s32 (w.extractLsb' 0 32) < 8) ∧
    ((w.extractLsb' 96 5).toNat ≤ 6 →
      0 ≤ s32 (w.extractLsb' 32 32) ∧ s32 (w.extractLsb' 32 32) < 8)

/-- Words written out by the spec decode to the instructions it gives for them (41_halt_io.md to
45_branches.md, the examples). -/
def Obligations.SpecWordsDecode : Prop :=
  decode 0x00000000000000000000000000 = .instr (.halt 0 0 0) ∧
  decode 0x02000000020000000000000000 = .instr (.out 2 0 0) ∧
  decode 0x06000000050000000500000002 = .instr (.div 5 5 2) ∧
  decode 0x08000000010000000000000006 = .instr (.st 1 0 6) ∧
  decode 0x0A00000002FFFFFFF900000000 = .instr (.ldc 2 (-7) 0) ∧
  decode 0x0D00000001FFFFFFFD00000007 = .instr (.jgt 1 (-3) 7)

/-- The canonical text of every instruction decodes to it (30_encoding.md Part C, canonical text). -/
def Obligations.CanonicalTextDecodes : Prop :=
  ∀ i : Instr, decodeLine (canonicalText i) = .instr i

/-- Which lines are discarded (30_encoding.md R80): after trimming no alphanumeric content, or the first
character is `*`; no other line is. `trim` and `isAlnum` use the character classes of decision D20
(log 11). -/
def Obligations.DiscardedLines : Prop :=
  ∀ l : List Char, decodeLine l = .discarded ↔
    (∀ c ∈ trim l, isAlnum c = false) ∨ (∃ rest, trim l = '*' :: rest)

/-- A line that is not discarded and does not split into exactly two tokens fails with
`InvalidInstruction`, and no other line does (30_encoding.md R81). -/
def Obligations.WrongTokenCountFails : Prop :=
  ∀ l : List Char, decodeLine l = .error .invalidInstruction ↔
    decodeLine l ≠ .discarded ∧ (tokens (trim l)).length ≠ 2

/-- What becomes of a line with two tokens (30_encoding.md Part C, mnemonic and order of checks): if the
first is none of the 17 mnemonics it fails with `InvalidOpcode`, and no other line does; otherwise the
line is its operand string decoded for that opcode. Upper case only is decision D17 (log 11). -/
def Obligations.TwoTokenLinesByMnemonic : Prop :=
  allOpcodes.map mnemonicOf =
    ["HALT".toList, "IN".toList, "OUT".toList, "ADD".toList, "SUB".toList, "MUL".toList, "DIV".toList,
      "LD".toList, "ST".toList, "LDA".toList, "LDC".toList, "JLT".toList, "JLE".toList, "JGT".toList,
      "JGE".toList, "JEQ".toList, "JNE".toList] ∧
  (∀ op : Opcode, op ∈ allOpcodes) ∧
  ∀ l : List Char,
    (decodeLine l = .error .invalidOpcode ↔ decodeLine l ≠ .discarded ∧
      ∃ m ops, tokens (trim l) = [m, ops] ∧ ∀ op : Opcode, mnemonicOf op ≠ m) ∧
    (∀ (op : Opcode) (ops : List Char), decodeLine l ≠ .discarded →
      tokens (trim l) = [mnemonicOf op, ops] → decodeLine l = decodeOperands op ops)

/-- `RegisterOnly` operands (30_encoding.md Part C): exactly three comma-separated integers in `[0, 8)`,
which become `r`, `s`, `t` in order; anything else is `InvalidArguments` naming the opcode. What is an
integer is decision D16 (log 11), written out in `IsIntLiteral`. -/
def Obligations.RegisterOnlyOperandGrammar : Prop :=
  ∀ (op : Opcode) (cs : List Char), op.format = .registerOnly →
    (∀ i, decodeOperands op cs = .instr i ↔
      ∃ (a b c : List Char) (x y z : Int), cs = a ++ [','] ++ b ++ [','] ++ c ∧
        IsIntLiteral a x ∧ IsIntLiteral b y ∧ IsIntLiteral c z ∧
        (0 ≤ x ∧ x < 8) ∧ (0 ≤ y ∧ y < 8) ∧ (0 ≤ z ∧ z < 8) ∧
        i.record = ⟨op, w32 x, w32 y, w32 z⟩) ∧
    ((∃ i, decodeOperands op cs = .instr i) ∨
      ∃ why, decodeOperands op cs = .error (.invalidArguments op why))

/-- `r,s(t)` operands (30_encoding.md Part C): a register, a comma, any 32-bit literal, and a register in
parentheses with nothing after them; anything else is `InvalidArguments` naming the opcode. What is an
integer is decision D16, written out in `IsIntLiteral`, and nothing after the `)` is D18 (log 11). -/
def Obligations.BracketedOperandGrammar : Prop :=
  ∀ (op : Opcode) (cs : List Char), op.format ≠ .registerOnly →
    (∀ i, decodeOperands op cs = .instr i ↔
      ∃ (a b c : List Char) (x y z : Int), cs = a ++ [','] ++ b ++ ['('] ++ c ++ [')'] ∧
        IsIntLiteral a x ∧ IsIntLiteral b y ∧ IsIntLiteral c z ∧
        (0 ≤ x ∧ x < 8) ∧ (0 ≤ z ∧ z < 8) ∧ i.record = ⟨op, w32 x, w32 y, w32 z⟩) ∧
    ((∃ i, decodeOperands op cs = .instr i) ∨
      ∃ why, decodeOperands op cs = .error (.invalidArguments op why))
end

