-- ==== Sys2Proof/Laws/Decode.lean ====
section
/-! SUPPORT. The laws of the encoding: a word holds the fields it was packed from, opcode numbers and
opcodes correspond, a register index survives its operand word. -/

namespace Sys2Proof

@[simp] theorem regIndex?_regWord (k : RegIdx) : regIndex? (regWord k) = some k := by
  revert k; decide

theorem s32_regWord (k : RegIdx) : s32 (regWord k) = (k.val : Int) := by
  revert k; decide

theorem isRegIndex_regWord (k : RegIdx) : isRegIndex (regWord k) = true := by
  revert k; decide

/-- A word is a register index exactly if it is the operand word of one. -/
theorem regIndex?_eq_some (v : Word) (k : RegIdx) : regIndex? v = some k ↔ v = regWord k := by
  constructor
  · intro h
    unfold regIndex? at h
    split at h
    · rename_i hv
      have hk : (⟨(s32 v).toNat, by omega⟩ : RegIdx) = k := by simpa using h
      have h2 : (s32 v).toNat = k.val := by rw [← hk]
      apply BitVec.eq_of_toInt_eq
      have h3 := s32_regWord k
      show s32 v = s32 (regWord k)
      omega
    · cases h
  · rintro rfl; simp

theorem regIndex?_eq_none (v : Word) : regIndex? v = none ↔ isRegIndex v = false := by
  simp only [regIndex?, isRegIndex]
  split <;> simp_all

theorem isRegIndex_iff (v : Word) : isRegIndex v = true ↔ 0 ≤ s32 v ∧ s32 v < 8 := by
  simp [isRegIndex]

theorem isRegIndex_iff_exists (v : Word) : isRegIndex v = true ↔ ∃ k : RegIdx, regIndex? v = some k := by
  have h := regIndex?_eq_none v
  cases h1 : regIndex? v <;> cases h2 : isRegIndex v <;> simp_all

/-! ### Opcode numbers -/

@[simp] theorem ofNumber_number (o : Opcode) : Opcode.ofNumber o.number = some o := by cases o <;> rfl

theorem number_le (o : Opcode) : o.number ≤ 16 := by cases o <;> decide

theorem ofNumber_eq_some (n : Nat) (o : Opcode) (h : Opcode.ofNumber n = some o) : n = o.number := by
  unfold Opcode.ofNumber at h
  split at h <;> first | (cases h; rfl) | cases h

theorem ofNumber_isSome (n : Nat) : (∃ o, Opcode.ofNumber n = some o) ↔ n ≤ 16 := by
  constructor
  · rintro ⟨o, h⟩
    rw [ofNumber_eq_some n o h]
    exact number_le o
  · intro h
    interval_cases n <;> exact ⟨_, rfl⟩

theorem number_registerOnly (o : Opcode) : o.format = .registerOnly ↔ o.number ≤ 6 := by
  cases o <;> simp [Opcode.format, Opcode.number]

/-! ### The word and its fields -/

/-- Unpacking what was packed. -/
@[simp] theorem fieldsOf_packFields (f : Fields) : fieldsOf (packFields f) = f := by
  obtain ⟨op, r, s, t⟩ := f
  simp only [fieldsOf, packFields, Fields.mk.injEq]
  refine ⟨?_, ?_, ?_, ?_⟩ <;> ext i hi <;>
    simp only [BitVec.getElem_extractLsb', BitVec.getLsbD_append] <;> grind

/-- Packing what was unpacked. -/
@[simp] theorem packFields_fieldsOf (w : InstrWord) : packFields (fieldsOf w) = w := by
  apply BitVec.eq_of_getLsbD_eq
  intro i hi
  simp only [fieldsOf, packFields, BitVec.getLsbD_append, BitVec.getLsbD_extractLsb']
  grind

/-! ### Building an instruction -/

/-- The operands of an instruction's own record give it back. -/
theorem build_record (i : Instr) :
    build i.record.op i.record.r i.record.s i.record.t = .instr i := by
  cases i <;> simp [Instr.record, build, decodeRegs, decodeMem]

theorem decodeRegs_eq_instr (mk : RegIdx → RegIdx → RegIdx → Instr) (r s t : Word) (i : Instr) :
    decodeRegs mk r s t = .instr i ↔
      ∃ a b c, r = regWord a ∧ s = regWord b ∧ t = regWord c ∧ i = mk a b c := by
  constructor
  · intro h
    unfold decodeRegs at h
    split at h <;> try cases h
    rename_i a b c ha hb hc
    exact ⟨a, b, c, (regIndex?_eq_some _ _).mp ha, (regIndex?_eq_some _ _).mp hb,
      (regIndex?_eq_some _ _).mp hc, rfl⟩
  · rintro ⟨a, b, c, rfl, rfl, rfl, rfl⟩
    simp [decodeRegs]

theorem decodeMem_eq_instr (mk : RegIdx → Word → RegIdx → Instr) (r s t : Word) (i : Instr) :
    decodeMem mk r s t = .instr i ↔
      ∃ a c, r = regWord a ∧ t = regWord c ∧ i = mk a s c := by
  constructor
  · intro h
    unfold decodeMem at h
    split at h <;> try cases h
    rename_i a c ha hc
    exact ⟨a, c, (regIndex?_eq_some _ _).mp ha, (regIndex?_eq_some _ _).mp hc, rfl⟩
  · rintro ⟨a, c, rfl, rfl, rfl⟩
    simp [decodeMem]

/-- Building gives the instruction whose record was given, and no other. -/
theorem build_eq_instr (op : Opcode) (r s t : Word) (i : Instr) :
    build op r s t = .instr i ↔ i.record = ⟨op, r, s, t⟩ := by
  constructor
  · intro h
    cases op <;> simp only [build, decodeRegs_eq_instr, decodeMem_eq_instr] at h
    all_goals
      first
      | (obtain ⟨a, b, c, rfl, rfl, rfl, rfl⟩ := h; rfl)
      | (obtain ⟨a, c, rfl, rfl, rfl⟩ := h; rfl)
  · intro h
    have := build_record i
    rw [h] at this
    exact this

/-- Every instruction's record satisfies the invariant of 10_state.md R30. -/
theorem record_wellFormed (i : Instr) : i.record.wellFormed = true := by
  cases i <;> simp [Instr.record, Record.wellFormed, Opcode.format, isRegIndex_regWord]

/-- The operands of an opcode build an instruction exactly if the record is well-formed. -/
theorem build_answers_iff (op : Opcode) (r s t : Word) :
    (∃ i, build op r s t = .instr i) ↔ Record.wellFormed ⟨op, r, s, t⟩ = true := by
  constructor
  · rintro ⟨i, h⟩
    rw [build_eq_instr] at h
    rw [← h]
    exact record_wellFormed i
  · intro h
    simp only [Record.wellFormed, Bool.and_eq_true, isRegIndex_iff_exists] at h
    obtain ⟨⟨⟨a, ha⟩, ⟨c, hc⟩⟩, hs⟩ := h
    cases op <;> simp only [Opcode.format, isRegIndex_iff_exists] at hs
    all_goals
      first
      | (obtain ⟨b, hb⟩ := hs; exact ⟨_, by simp only [build, decodeRegs, ha, hb, hc]; rfl⟩)
      | exact ⟨_, by simp only [build, decodeMem, ha, hc]; rfl⟩

/-- The well-formedness of fields in plain inequalities (30_encoding.md R77). -/
theorem Fields.wellFormed_iff (f : Fields) :
    f.wellFormed = true ↔ f.op.toNat ≤ 16 ∧ (0 ≤ s32 f.r ∧ s32 f.r < 8) ∧
      (0 ≤ s32 f.t ∧ s32 f.t < 8) ∧ (f.op.toNat ≤ 6 → 0 ≤ s32 f.s ∧ s32 f.s < 8) := by
  simp only [Fields.wellFormed, Bool.and_eq_true, Bool.or_eq_true, decide_eq_true_eq, isRegIndex_iff]
  constructor
  · rintro ⟨⟨⟨h1, h2⟩, h3⟩, h4⟩
    exact ⟨h1, h2, h3, fun h => h4.resolve_left (by omega)⟩
  · rintro ⟨h1, h2, h3, h4⟩
    refine ⟨⟨⟨h1, h2⟩, h3⟩, ?_⟩
    by_cases h : 6 < f.op.toNat
    · exact .inl h
    · exact .inr (h4 (by omega))

end Sys2Proof
end

