-- ==== Sys2Proof/Laws/State.lean ====
section
/-! SUPPORT. One lemma for each field after each named update of the state, and for what the accessors
read after an update that does not touch them. All true by definition. -/

namespace Sys2Proof.Machine

variable (s : State)

/-! ### setReg -/

@[simp] theorem State.setReg_cfg (k : RegIdx) (v : Word) : (s.setReg k v).cfg = s.cfg := rfl
@[simp] theorem State.setReg_regs (k : RegIdx) (v : Word) :
    (s.setReg k v).regs = s.regs.set k.val v := rfl
@[simp] theorem State.setReg_dmem (k : RegIdx) (v : Word) : (s.setReg k v).dmem = s.dmem := rfl
@[simp] theorem State.setReg_imem (k : RegIdx) (v : Word) : (s.setReg k v).imem = s.imem := rfl
@[simp] theorem State.setReg_cpuState (k : RegIdx) (v : Word) :
    (s.setReg k v).cpuState = s.cpuState := rfl
@[simp] theorem State.setReg_traceEnabled (k : RegIdx) (v : Word) :
    (s.setReg k v).traceEnabled = s.traceEnabled := rfl
@[simp] theorem State.setReg_inputs (k : RegIdx) (v : Word) :
    (s.setReg k v).inputs = s.inputs := rfl
@[simp] theorem State.setReg_inputCount (k : RegIdx) (v : Word) :
    (s.setReg k v).inputCount = s.inputCount := rfl
@[simp] theorem State.setReg_events (k : RegIdx) (v : Word) :
    (s.setReg k v).events = s.events := rfl
@[simp] theorem State.setReg_readData (k : RegIdx) (v : Word) (b : Nat) :
    (s.setReg k v).readData b = s.readData b := rfl
@[simp] theorem State.setReg_readSlot (k : RegIdx) (v : Word) (q : Nat) :
    (s.setReg k v).readSlot q = s.readSlot q := rfl

/-! ### writeData -/

@[simp] theorem State.writeData_cfg (a : Nat) (v : Word) : (s.writeData a v).cfg = s.cfg := rfl
@[simp] theorem State.writeData_regs (a : Nat) (v : Word) : (s.writeData a v).regs = s.regs := rfl
@[simp] theorem State.writeData_dmem (a : Nat) (v : Word) :
    (s.writeData a v).dmem = Memory.write (dataReset s.cfg) s.dmem a v := rfl
@[simp] theorem State.writeData_imem (a : Nat) (v : Word) : (s.writeData a v).imem = s.imem := rfl
@[simp] theorem State.writeData_cpuState (a : Nat) (v : Word) :
    (s.writeData a v).cpuState = s.cpuState := rfl
@[simp] theorem State.writeData_traceEnabled (a : Nat) (v : Word) :
    (s.writeData a v).traceEnabled = s.traceEnabled := rfl
@[simp] theorem State.writeData_inputs (a : Nat) (v : Word) :
    (s.writeData a v).inputs = s.inputs := rfl
@[simp] theorem State.writeData_inputCount (a : Nat) (v : Word) :
    (s.writeData a v).inputCount = s.inputCount := rfl
@[simp] theorem State.writeData_events (a : Nat) (v : Word) :
    (s.writeData a v).events = s.events := rfl
@[simp] theorem State.writeData_reg (a : Nat) (v : Word) (j : RegIdx) :
    (s.writeData a v).reg j = s.reg j := rfl
@[simp] theorem State.writeData_readSlot (a : Nat) (v : Word) (q : Nat) :
    (s.writeData a v).readSlot q = s.readSlot q := rfl

/-! ### writeSlot -/

@[simp] theorem State.writeSlot_cfg (p : Nat) (w : InstrWord) : (s.writeSlot p w).cfg = s.cfg := rfl
@[simp] theorem State.writeSlot_regs (p : Nat) (w : InstrWord) :
    (s.writeSlot p w).regs = s.regs := rfl
@[simp] theorem State.writeSlot_dmem (p : Nat) (w : InstrWord) :
    (s.writeSlot p w).dmem = s.dmem := rfl
@[simp] theorem State.writeSlot_imem (p : Nat) (w : InstrWord) :
    (s.writeSlot p w).imem = Memory.write slotReset s.imem p w := rfl
@[simp] theorem State.writeSlot_cpuState (p : Nat) (w : InstrWord) :
    (s.writeSlot p w).cpuState = s.cpuState := rfl
@[simp] theorem State.writeSlot_traceEnabled (p : Nat) (w : InstrWord) :
    (s.writeSlot p w).traceEnabled = s.traceEnabled := rfl
@[simp] theorem State.writeSlot_inputs (p : Nat) (w : InstrWord) :
    (s.writeSlot p w).inputs = s.inputs := rfl
@[simp] theorem State.writeSlot_inputCount (p : Nat) (w : InstrWord) :
    (s.writeSlot p w).inputCount = s.inputCount := rfl
@[simp] theorem State.writeSlot_events (p : Nat) (w : InstrWord) :
    (s.writeSlot p w).events = s.events := rfl
@[simp] theorem State.writeSlot_reg (p : Nat) (w : InstrWord) (j : RegIdx) :
    (s.writeSlot p w).reg j = s.reg j := rfl
@[simp] theorem State.writeSlot_readData (p : Nat) (w : InstrWord) (b : Nat) :
    (s.writeSlot p w).readData b = s.readData b := rfl

/-! ### emit -/

@[simp] theorem State.emit_cfg (e : Event) : (s.emit e).cfg = s.cfg := rfl
@[simp] theorem State.emit_regs (e : Event) : (s.emit e).regs = s.regs := rfl
@[simp] theorem State.emit_dmem (e : Event) : (s.emit e).dmem = s.dmem := rfl
@[simp] theorem State.emit_imem (e : Event) : (s.emit e).imem = s.imem := rfl
@[simp] theorem State.emit_cpuState (e : Event) : (s.emit e).cpuState = s.cpuState := rfl
@[simp] theorem State.emit_traceEnabled (e : Event) :
    (s.emit e).traceEnabled = s.traceEnabled := rfl
@[simp] theorem State.emit_inputs (e : Event) : (s.emit e).inputs = s.inputs := rfl
@[simp] theorem State.emit_inputCount (e : Event) : (s.emit e).inputCount = s.inputCount := rfl
@[simp] theorem State.emit_events (e : Event) : (s.emit e).events = s.events ++ [e] := rfl
@[simp] theorem State.emit_reg (e : Event) (j : RegIdx) : (s.emit e).reg j = s.reg j := rfl
@[simp] theorem State.emit_readData (e : Event) (b : Nat) :
    (s.emit e).readData b = s.readData b := rfl
@[simp] theorem State.emit_readSlot (e : Event) (q : Nat) :
    (s.emit e).readSlot q = s.readSlot q := rfl

/-! ### takeInput -/

@[simp] theorem State.takeInput_cfg : (s.takeInput).cfg = s.cfg := rfl
@[simp] theorem State.takeInput_regs : (s.takeInput).regs = s.regs := rfl
@[simp] theorem State.takeInput_dmem : (s.takeInput).dmem = s.dmem := rfl
@[simp] theorem State.takeInput_imem : (s.takeInput).imem = s.imem := rfl
@[simp] theorem State.takeInput_cpuState : (s.takeInput).cpuState = s.cpuState := rfl
@[simp] theorem State.takeInput_traceEnabled : (s.takeInput).traceEnabled = s.traceEnabled := rfl
@[simp] theorem State.takeInput_inputs : (s.takeInput).inputs = s.inputs.tail := rfl
@[simp] theorem State.takeInput_inputCount : (s.takeInput).inputCount = s.inputCount + 1 := rfl
@[simp] theorem State.takeInput_events :
    (s.takeInput).events = s.events ++ [.input s.nextInput] := rfl
@[simp] theorem State.takeInput_reg (j : RegIdx) : (s.takeInput).reg j = s.reg j := rfl
@[simp] theorem State.takeInput_readData (b : Nat) : (s.takeInput).readData b = s.readData b := rfl
@[simp] theorem State.takeInput_readSlot (q : Nat) : (s.takeInput).readSlot q = s.readSlot q := rfl

/-! ### raise -/

@[simp] theorem State.raise_cfg (f : CpuState) : (s.raise f).cfg = s.cfg := rfl
@[simp] theorem State.raise_regs (f : CpuState) : (s.raise f).regs = s.regs := rfl
@[simp] theorem State.raise_dmem (f : CpuState) : (s.raise f).dmem = s.dmem := rfl
@[simp] theorem State.raise_imem (f : CpuState) : (s.raise f).imem = s.imem := rfl
@[simp] theorem State.raise_cpuState (f : CpuState) : (s.raise f).cpuState = f := rfl
@[simp] theorem State.raise_traceEnabled (f : CpuState) :
    (s.raise f).traceEnabled = s.traceEnabled := rfl
@[simp] theorem State.raise_inputs (f : CpuState) : (s.raise f).inputs = s.inputs := rfl
@[simp] theorem State.raise_inputCount (f : CpuState) : (s.raise f).inputCount = s.inputCount := rfl
@[simp] theorem State.raise_events (f : CpuState) : (s.raise f).events = s.events := rfl
@[simp] theorem State.raise_reg (f : CpuState) (j : RegIdx) : (s.raise f).reg j = s.reg j := rfl
@[simp] theorem State.raise_readData (f : CpuState) (b : Nat) :
    (s.raise f).readData b = s.readData b := rfl
@[simp] theorem State.raise_readSlot (f : CpuState) (q : Nat) :
    (s.raise f).readSlot q = s.readSlot q := rfl

/-! ### initialise -/

@[simp] theorem State.initialise_cfg (b : Bool) : (s.initialise b).cfg = s.cfg := rfl
@[simp] theorem State.initialise_regs (b : Bool) :
    (s.initialise b).regs = Vector.replicate 8 0 := rfl
@[simp] theorem State.initialise_dmem (b : Bool) : (s.initialise b).dmem = [] := rfl
@[simp] theorem State.initialise_imem (b : Bool) :
    (s.initialise b).imem = if b then [] else s.imem := rfl
@[simp] theorem State.initialise_cpuState (b : Bool) : (s.initialise b).cpuState = .ok := rfl
@[simp] theorem State.initialise_traceEnabled (b : Bool) :
    (s.initialise b).traceEnabled = s.traceEnabled := rfl
@[simp] theorem State.initialise_inputs (b : Bool) : (s.initialise b).inputs = s.inputs := rfl
@[simp] theorem State.initialise_inputCount (b : Bool) :
    (s.initialise b).inputCount = s.inputCount := rfl
@[simp] theorem State.initialise_events (b : Bool) : (s.initialise b).events = s.events := rfl

/-! ### setTrace -/

@[simp] theorem State.setTrace_cfg (on : Bool) : (s.setTrace on).cfg = s.cfg := rfl
@[simp] theorem State.setTrace_regs (on : Bool) : (s.setTrace on).regs = s.regs := rfl
@[simp] theorem State.setTrace_dmem (on : Bool) : (s.setTrace on).dmem = s.dmem := rfl
@[simp] theorem State.setTrace_imem (on : Bool) : (s.setTrace on).imem = s.imem := rfl
@[simp] theorem State.setTrace_cpuState (on : Bool) : (s.setTrace on).cpuState = s.cpuState := rfl
@[simp] theorem State.setTrace_traceEnabled (on : Bool) : (s.setTrace on).traceEnabled = on := rfl
@[simp] theorem State.setTrace_inputs (on : Bool) : (s.setTrace on).inputs = s.inputs := rfl
@[simp] theorem State.setTrace_inputCount (on : Bool) :
    (s.setTrace on).inputCount = s.inputCount := rfl
@[simp] theorem State.setTrace_events (on : Bool) : (s.setTrace on).events = s.events := rfl
@[simp] theorem State.setTrace_reg (on : Bool) (j : RegIdx) : (s.setTrace on).reg j = s.reg j := rfl
@[simp] theorem State.setTrace_readData (on : Bool) (b : Nat) :
    (s.setTrace on).readData b = s.readData b := rfl
@[simp] theorem State.setTrace_readSlot (on : Bool) (q : Nat) :
    (s.setTrace on).readSlot q = s.readSlot q := rfl

/-! ### supplyInput -/

@[simp] theorem State.supplyInput_cfg (v : Word) : (s.supplyInput v).cfg = s.cfg := rfl
@[simp] theorem State.supplyInput_regs (v : Word) : (s.supplyInput v).regs = s.regs := rfl
@[simp] theorem State.supplyInput_dmem (v : Word) : (s.supplyInput v).dmem = s.dmem := rfl
@[simp] theorem State.supplyInput_imem (v : Word) : (s.supplyInput v).imem = s.imem := rfl
@[simp] theorem State.supplyInput_cpuState (v : Word) :
    (s.supplyInput v).cpuState = s.cpuState := rfl
@[simp] theorem State.supplyInput_traceEnabled (v : Word) :
    (s.supplyInput v).traceEnabled = s.traceEnabled := rfl
@[simp] theorem State.supplyInput_inputs (v : Word) :
    (s.supplyInput v).inputs = s.inputs ++ [v] := rfl
@[simp] theorem State.supplyInput_inputCount (v : Word) :
    (s.supplyInput v).inputCount = s.inputCount := rfl
@[simp] theorem State.supplyInput_events (v : Word) : (s.supplyInput v).events = s.events := rfl
@[simp] theorem State.supplyInput_reg (v : Word) (j : RegIdx) :
    (s.supplyInput v).reg j = s.reg j := rfl
@[simp] theorem State.supplyInput_readData (v : Word) (b : Nat) :
    (s.supplyInput v).readData b = s.readData b := rfl
@[simp] theorem State.supplyInput_readSlot (v : Word) (q : Nat) :
    (s.supplyInput v).readSlot q = s.readSlot q := rfl

end Sys2Proof.Machine
end

