-- ==== Sys2Proof/Laws/Ops.lean ====
section
/-! SUPPORT. The laws of the named operations: sparse memories keep their canonical form and read back
what was written, registers and cells likewise. Later proofs cite these and unfold nothing. -/

namespace Sys2Proof.Machine

/-! ### Sparse memories -/

variable {α : Type}

theorem Memory.read_insert (dflt : Nat → α) (m : Memory α) (a b : Nat) (v : α)
    (h : ∀ c ∈ m, c.1 ≠ a) :
    Memory.read dflt (m.insert a v) b = if b = a then v else Memory.read dflt m b := by
  induction m with
  | nil => simp only [Memory.insert, Memory.read]; grind
  | cons c m ih =>
    have hc : c.1 ≠ a := h c (by simp)
    have ih := ih fun d hd => h d (by simp [hd])
    unfold Memory.insert
    split
    · simp only [Memory.read]; grind
    · simp only [Memory.read, ih]; grind

theorem Memory.read_erase (dflt : Nat → α) (m : Memory α) (a b : Nat) :
    Memory.read dflt (m.erase a) b = if b = a then dflt a else Memory.read dflt m b := by
  induction m with
  | nil => simp only [Memory.erase, List.filter_nil, Memory.read]; split <;> simp_all
  | cons c m ih =>
    unfold Memory.erase at *
    by_cases hc : c.1 = a
    · simp only [List.filter_cons, hc, ne_eq, not_true, decide_false, Bool.false_eq_true, if_false, ih]
      split
      · rfl
      · simp only [Memory.read]; split <;> simp_all
    · simp only [List.filter_cons, hc, ne_eq, not_false_eq_true, decide_true, if_true, Memory.read, ih]
      split <;> split <;> simp_all

theorem Memory.ne_of_mem_erase (m : Memory α) (a : Nat) : ∀ c ∈ m.erase a, c.1 ≠ a := by
  intro c hc
  simpa [Memory.erase] using (List.mem_filter.mp hc).2

/-- Reading after a write: the written index gives the value, every other index is unchanged. -/
theorem Memory.read_write [DecidableEq α] (dflt : Nat → α) (m : Memory α) (a b : Nat) (v : α) :
    Memory.read dflt (Memory.write dflt m a v) b = if b = a then v else Memory.read dflt m b := by
  unfold Memory.write
  split
  · rename_i h; rw [Memory.read_erase]; split <;> simp_all
  · rw [Memory.read_insert _ _ _ _ _ (Memory.ne_of_mem_erase m a), Memory.read_erase]
    split <;> simp_all

theorem Memory.mem_insert (m : Memory α) (a : Nat) (v : α) (c : Nat × α) :
    c ∈ m.insert a v ↔ c = (a, v) ∨ c ∈ m := by
  induction m with
  | nil => simp [Memory.insert]
  | cons d m ih =>
    unfold Memory.insert
    split
    · simp
    · simp only [List.mem_cons, ih]; tauto

theorem Memory.insert_rising (m : Memory α) (a : Nat) (v : α)
    (h : m.Pairwise (fun c d => c.1 < d.1)) (hne : ∀ c ∈ m, c.1 ≠ a) :
    (m.insert a v).Pairwise (fun c d => c.1 < d.1) := by
  induction m with
  | nil => simp [Memory.insert]
  | cons c m ih =>
    obtain ⟨h1, h2⟩ := List.pairwise_cons.mp h
    unfold Memory.insert
    split
    · rename_i hac
      refine List.pairwise_cons.mpr ⟨?_, h⟩
      intro d hd
      rcases List.mem_cons.mp hd with rfl | hd
      · exact hac
      · exact lt_trans hac (h1 d hd)
    · rename_i hac
      refine List.pairwise_cons.mpr ⟨?_, ih h2 fun d hd => hne d (by simp [hd])⟩
      intro d hd
      rcases (Memory.mem_insert m a v d).mp hd with rfl | hd
      · have := hne c (by simp)
        simp only at *
        omega
      · exact h1 d hd

/-- A write keeps the canonical form. -/
theorem Memory.write_wf [DecidableEq α] (dflt : Nat → α) (m : Memory α) (a : Nat) (v : α)
    (h : Memory.wf dflt m) : Memory.wf dflt (Memory.write dflt m a v) := by
  have hp : (m.erase a).Pairwise (fun c d => c.1 < d.1) := h.1.sublist List.filter_sublist
  have hd : ∀ c ∈ m.erase a, c.2 ≠ dflt c.1 := fun c hc => h.2 c (List.mem_filter.mp hc).1
  unfold Memory.write
  split
  · exact ⟨hp, hd⟩
  · rename_i hv
    refine ⟨Memory.insert_rising _ _ _ hp (Memory.ne_of_mem_erase m a), fun c hc => ?_⟩
    rcases (Memory.mem_insert _ _ _ c).mp hc with rfl | hc
    · exact hv
    · exact hd c hc

/-- A write below the capacity keeps every index below it. -/
theorem Memory.write_within [DecidableEq α] (dflt : Nat → α) (m : Memory α) (a cap : Nat) (v : α)
    (h : Memory.within cap m) (ha : a < cap) : Memory.within cap (Memory.write dflt m a v) := by
  have he : Memory.within cap (m.erase a) := fun c hc => h c (List.mem_filter.mp hc).1
  unfold Memory.write
  split
  · exact he
  · intro c hc
    rcases (Memory.mem_insert _ _ _ c).mp hc with rfl | hc
    · exact ha
    · exact he c hc

theorem Memory.read_of_forall_ne (dflt : Nat → α) (m : Memory α) (a : Nat) (h : ∀ c ∈ m, c.1 ≠ a) :
    Memory.read dflt m a = dflt a := by
  induction m with
  | nil => rfl
  | cons c m ih =>
    simp only [Memory.read, h c (by simp), if_false]
    exact ih fun d hd => h d (by simp [hd])

/-- In canonical form, equal contents are equal data. -/
theorem Memory.ext_of_wf (dflt : Nat → α) (m n : Memory α) (hm : Memory.wf dflt m)
    (hn : Memory.wf dflt n) (h : ∀ a, Memory.read dflt m a = Memory.read dflt n a) : m = n := by
  induction m generalizing n with
  | nil =>
    cases n with
    | nil => rfl
    | cons d n =>
      have := h d.1
      simp only [Memory.read, if_true] at this
      exact absurd this.symm (hn.2 d (by simp))
  | cons c m ih =>
    have hm1 := List.pairwise_cons.mp hm.1
    cases n with
    | nil =>
      have := h c.1
      simp only [Memory.read, if_true] at this
      exact absurd this (hm.2 c (by simp))
    | cons d n =>
      have hn1 := List.pairwise_cons.mp hn.1
      have hkey : c.1 = d.1 := by
        rcases lt_trichotomy c.1 d.1 with hlt | heq | hgt
        · have h1 := h c.1
          rw [Memory.read_of_forall_ne dflt (d :: n) c.1] at h1
          · simp only [Memory.read, if_true] at h1
            exact absurd h1 (hm.2 c (by simp))
          · intro e he
            rcases List.mem_cons.mp he with rfl | he
            · omega
            · have := hn1.1 e he; omega
        · exact heq
        · have h1 := h d.1
          rw [Memory.read_of_forall_ne dflt (c :: m) d.1] at h1
          · simp only [Memory.read, if_true] at h1
            exact absurd h1.symm (hn.2 d (by simp))
          · intro e he
            rcases List.mem_cons.mp he with rfl | he
            · omega
            · have := hm1.1 e he; omega
      have hval : c.2 = d.2 := by simpa [Memory.read, hkey] using h c.1
      obtain ⟨ck, cv⟩ := c
      obtain ⟨dk, dv⟩ := d
      simp only at hkey hval
      subst hkey hval
      congr 1
      refine ih n ⟨hm1.2, fun e he => hm.2 e (by simp [he])⟩
        ⟨hn1.2, fun e he => hn.2 e (by simp [he])⟩ fun a => ?_
      by_cases ha : ck = a
      · rw [Memory.read_of_forall_ne, Memory.read_of_forall_ne]
        · intro e he; have := hn1.1 e he; simp only at this; omega
        · intro e he; have := hm1.1 e he; simp only at this; omega
      · simpa [Memory.read, ha] using h a

/-! ### Registers -/

@[simp] theorem State.pc_eq (s : State) : s.pc = s.reg pcReg := rfl

@[simp] theorem State.setPc_eq (s : State) (v : Word) : s.setPc v = s.setReg pcReg v := rfl

theorem State.reg_setReg (s : State) (k j : RegIdx) (v : Word) :
    (s.setReg k v).reg j = if j = k then v else s.reg j := by
  simp only [State.reg, State.setReg, Vector.getElem_set, Fin.ext_iff]
  split <;> split <;> simp_all

@[simp] theorem State.reg_setReg_self (s : State) (k : RegIdx) (v : Word) :
    (s.setReg k v).reg k = v := by simp [State.reg_setReg]

theorem State.reg_setReg_of_ne (s : State) (k j : RegIdx) (v : Word) (h : j ≠ k) :
    (s.setReg k v).reg j = s.reg j := by simp [State.reg_setReg, h]

@[simp] theorem State.reg_initialise (s : State) (b : Bool) (k : RegIdx) :
    (s.initialise b).reg k = 0 := by simp [State.reg, State.initialise]

/-! ### Cells and slots -/

theorem State.readData_writeData (s : State) (a b : Nat) (v : Word) :
    (s.writeData a v).readData b = if b = a then v else s.readData b :=
  Memory.read_write _ _ _ _ _

theorem State.readSlot_writeSlot (s : State) (p q : Nat) (w : InstrWord) :
    (s.writeSlot p w).readSlot q = if q = p then w else s.readSlot q :=
  Memory.read_write _ _ _ _ _

theorem State.readData_initialise (s : State) (b : Bool) (a : Nat) :
    (s.initialise b).readData a = dataReset s.cfg a := rfl

theorem State.readSlot_initialise_true (s : State) (p : Nat) : (s.initialise true).readSlot p = 0 := rfl

theorem State.readSlot_initialise_false (s : State) (p : Nat) :
    (s.initialise false).readSlot p = s.readSlot p := rfl

/-! ### Addresses -/

theorem inRange_iff (c : Config) (v : Word) :
    inRange c v = true ↔ 0 ≤ s32 v ∧ s32 v < (c.cap : Int) := by
  simp [inRange]

theorem cellIndex_lt (c : Config) (v : Word) (h : inRange c v = true) : cellIndex v < c.cap := by
  have := (inRange_iff c v).mp h
  unfold cellIndex
  omega

/-- Narrowing gives the word congruent to the integer (00_scope.md R7). -/
theorem u32_w32 (n : Int) : (u32 (w32 n) : Int) = n % 4294967296 := by
  simp only [u32, w32, BitVec.toNat_ofInt]
  omega

/-- Narrowing loses nothing in the signed range (00_scope.md R7). -/
theorem s32_w32 (n : Int) (h : -2147483648 ≤ n ∧ n ≤ 2147483647) : s32 (w32 n) = n := by
  simp only [s32, w32, BitVec.toInt_ofInt]
  rw [Int.bmod_def]
  omega

theorem w32_s32 (v : Word) : w32 (s32 v) = v := BitVec.ofInt_toInt

theorem s32_bounds (v : Word) : -2147483648 ≤ s32 v ∧ s32 v ≤ 2147483647 := by
  have h1 := BitVec.le_toInt v
  have h2 := BitVec.toInt_lt (x := v)
  simp only [s32]
  omega

end Sys2Proof.Machine
end

