-- ==== Sys2Proof/Laws/Exec.lean ====
section
/-! SUPPORT. What the body of an instruction can do, said once: it always answers, it never touches
instruction memory, the configuration or the trace flag, only ST touches data memory, and it leaves
`OK` only in the ways 60_exceptions.md R232 lists. -/

namespace Sys2Proof.Machine

/-- Every body answers a next state. -/
theorem exec_answers (i : Instr) (s : State) : ∃ t, exec i s = .next t := by
  cases i <;>
    simp only [exec, execHalt, execIn, execOut, execAdd, execSub, execMul, execDiv, execLd, execSt,
      execLda, execLdc, execJlt, execJle, execJgt, execJge, execJeq, execJne] <;>
    first
    | exact ⟨_, rfl⟩
    | split <;> exact ⟨_, rfl⟩

/-! ### The instructions that test before they act -/

theorem exec_div_of_zero (r u v : RegIdx) (s : State) (h : s32 (s.reg v) = 0) :
    exec (.div r u v) s = .next (s.raise .divideByZero) := if_pos h

theorem exec_div_of_ne_zero (r u v : RegIdx) (s : State) (h : s32 (s.reg v) ≠ 0) :
    exec (.div r u v) s = .next (s.setReg r (quotient (s.reg u) (s.reg v))) := if_neg h

theorem exec_ld_of_inRange (r b : RegIdx) (d : Word) (s : State)
    (h : inRange s.cfg (s.effAddr d b) = true) :
    exec (.ld r d b) s = .next (s.setReg r (s.readData (cellIndex (s.effAddr d b)))) := if_pos h

theorem exec_ld_of_not_inRange (r b : RegIdx) (d : Word) (s : State)
    (h : inRange s.cfg (s.effAddr d b) = false) :
    exec (.ld r d b) s = .next (s.raise .dataFault) := if_neg (by simp [h])

theorem exec_st_of_inRange (r b : RegIdx) (d : Word) (s : State)
    (h : inRange s.cfg (s.effAddr d b) = true) :
    exec (.st r d b) s = .next (s.writeData (cellIndex (s.effAddr d b)) (s.reg r)) := if_pos h

theorem exec_st_of_not_inRange (r b : RegIdx) (d : Word) (s : State)
    (h : inRange s.cfg (s.effAddr d b) = false) :
    exec (.st r d b) s = .next (s.raise .dataFault) := if_neg (by simp [h])

/-! ### All instructions -/

/-- A jump writes `x[7]` or nothing (45_branches.md R186). -/
theorem State.jumpIf_cases (s : State) (taken : Bool) (a : Word) :
    (taken = true ∧ s.jumpIf taken a = s.setReg pcReg a) ∨
      (taken = false ∧ s.jumpIf taken a = s) := by
  cases taken
  · exact .inr ⟨rfl, rfl⟩
  · exact .inl ⟨rfl, rfl⟩

/-- The state a body ends in, by what the body is. -/
inductive BodyResult (i : Instr) (s : State) : State → Prop
  /-- HALT. -/
  | halts (h : ∃ r u v, i = .halt r u v) : BodyResult i s (s.raise .halted)
  /-- DIV by zero. -/
  | dividesByZero (h : ∃ r u v, i = .div r u v ∧ s32 (s.reg v) = 0) :
      BodyResult i s (s.raise .divideByZero)
  /-- LD or ST outside `[0, CAP)`. -/
  | dataFault (h : ∃ r d b, (i = .ld r d b ∨ i = .st r d b) ∧
      inRange s.cfg (s.effAddr d b) = false) : BodyResult i s (s.raise .dataFault)
  /-- IN. -/
  | inputs (r : RegIdx) (h : ∃ u v, i = .inp r u v) :
      BodyResult i s (s.takeInput.setReg r s.nextInput)
  /-- OUT. -/
  | outputs (r : RegIdx) (h : ∃ u v, i = .out r u v) : BodyResult i s (s.emit (.output (s.reg r)))
  /-- ST inside `[0, CAP)`. -/
  | stores (r b : RegIdx) (d : Word) (h : i = .st r d b) (ha : inRange s.cfg (s.effAddr d b) = true) :
      BodyResult i s (s.writeData (cellIndex (s.effAddr d b)) (s.reg r))
  /-- An instruction that writes one register and cannot stop the machine, or could but does not. -/
  | writes (k : RegIdx) (v : Word)
      (h1 : ∀ r u v, i ≠ .halt r u v ∧ i ≠ .inp r u v ∧ i ≠ .out r u v)
      (h2 : ∀ r d b, i ≠ .st r d b)
      (h3 : ∀ r u v, i = .div r u v → s32 (s.reg v) ≠ 0)
      (h4 : ∀ r d b, i = .ld r d b → inRange s.cfg (s.effAddr d b) = true) :
      BodyResult i s (s.setReg k v)
  /-- A jump that is not taken. -/
  | fallsThrough
      (h1 : ∀ r u v, i ≠ .halt r u v ∧ i ≠ .inp r u v ∧ i ≠ .out r u v ∧ i ≠ .div r u v)
      (h2 : ∀ r d b, i ≠ .ld r d b ∧ i ≠ .st r d b) : BodyResult i s s

theorem jumpIf_bodyResult (i : Instr) (s : State) (taken : Bool) (a : Word)
    (h1 : ∀ r u v, i ≠ .halt r u v ∧ i ≠ .inp r u v ∧ i ≠ .out r u v ∧ i ≠ .div r u v)
    (h2 : ∀ r d b, i ≠ .ld r d b ∧ i ≠ .st r d b) : BodyResult i s (s.jumpIf taken a) := by
  rcases s.jumpIf_cases taken a with ⟨-, h⟩ | ⟨-, h⟩ <;> rw [h]
  · exact .writes pcReg a (fun r u v => ⟨(h1 r u v).1, (h1 r u v).2.1, (h1 r u v).2.2.1⟩)
      (fun r d b => (h2 r d b).2) (fun r u v h => absurd h (h1 r u v).2.2.2)
      (fun r d b h => absurd h (h2 r d b).1)
  · exact .fallsThrough h1 h2

/-- Everything a body can do. -/
theorem exec_cases (i : Instr) (s t : State) (h : exec i s = .next t) : BodyResult i s t := by
  cases i with
  | halt r u v => cases h; exact .halts ⟨r, u, v, rfl⟩
  | inp r u v => cases h; exact .inputs r ⟨u, v, rfl⟩
  | out r u v => cases h; exact .outputs r ⟨u, v, rfl⟩
  | add r u v => cases h; exact .writes r _ (by simp) (by simp) (by simp) (by simp)
  | sub r u v => cases h; exact .writes r _ (by simp) (by simp) (by simp) (by simp)
  | mul r u v => cases h; exact .writes r _ (by simp) (by simp) (by simp) (by simp)
  | div r u v =>
    simp only [exec, execDiv] at h
    split at h
    · rename_i hz; cases h; exact .dividesByZero ⟨r, u, v, rfl, hz⟩
    · rename_i hz; cases h
      exact .writes r _ (by simp) (by simp)
        (by intro r' u' v' h'; cases h'; exact hz) (by simp)
  | ld r d b =>
    simp only [exec, execLd] at h
    split at h
    · rename_i ha; cases h
      exact .writes r _ (by simp) (by simp) (by simp)
        (by intro r' d' b' h'; cases h'; exact ha)
    · rename_i ha; cases h
      exact .dataFault ⟨r, d, b, .inl rfl, by simpa using ha⟩
  | st r d b =>
    simp only [exec, execSt] at h
    split at h
    · rename_i ha; cases h; exact .stores r b d rfl ha
    · rename_i ha; cases h
      exact .dataFault ⟨r, d, b, .inr rfl, by simpa using ha⟩
  | lda r d b => cases h; exact .writes r _ (by simp) (by simp) (by simp) (by simp)
  | ldc r d b => cases h; exact .writes r _ (by simp) (by simp) (by simp) (by simp)
  | jlt r d b => cases h; exact jumpIf_bodyResult _ _ _ _ (by simp) (by simp)
  | jle r d b => cases h; exact jumpIf_bodyResult _ _ _ _ (by simp) (by simp)
  | jgt r d b => cases h; exact jumpIf_bodyResult _ _ _ _ (by simp) (by simp)
  | jge r d b => cases h; exact jumpIf_bodyResult _ _ _ _ (by simp) (by simp)
  | jeq r d b => cases h; exact jumpIf_bodyResult _ _ _ _ (by simp) (by simp)
  | jne r d b => cases h; exact jumpIf_bodyResult _ _ _ _ (by simp) (by simp)

/-- No body touches the configuration, instruction memory or the trace flag. -/
theorem exec_keeps (i : Instr) (s t : State) (h : exec i s = .next t) :
    t.cfg = s.cfg ∧ t.imem = s.imem ∧ t.traceEnabled = s.traceEnabled := by
  cases exec_cases i s t h <;> exact ⟨rfl, rfl, rfl⟩

/-- A body that leaves `OK` has raised, and has changed nothing else. -/
theorem exec_stops (i : Instr) (s t : State) (h : exec i s = .next t) (hs : s.cpuState = .ok)
    (ht : t.cpuState ≠ .ok) : t = s.raise t.cpuState := by
  cases exec_cases i s t h with
  | halts _ => rfl
  | dividesByZero _ => rfl
  | dataFault _ => rfl
  | _ => exact absurd hs ht

end Sys2Proof.Machine
end

