-- ==== Sys2Proof/Laws/Text.lean ====
section
/-! SUPPORT. The laws of the text decoder's pieces: cutting a text at a separator it holds once, the
decimal digits of a number and their value, and what an operand parser accepts. -/

namespace Sys2Proof.Machine

/-! ### Cutting -/

theorem splitOn_ne_nil (p : Char → Bool) (l : List Char) : splitOn p l ≠ [] := by
  cases l with
  | nil => simp [splitOn]
  | cons c cs =>
    unfold splitOn
    split
    · simp
    · split <;> simp

/-- A text without separators is one piece. -/
theorem splitOn_of_forall_not (p : Char → Bool) (l : List Char) (h : ∀ c ∈ l, p c = false) :
    splitOn p l = [l] := by
  induction l with
  | nil => rfl
  | cons c cs ih =>
    have hc := h c (by simp)
    have ih := ih fun d hd => h d (by simp [hd])
    simp only [splitOn, hc, Bool.false_eq_true, if_false, ih]

/-- Cutting at the first separator. -/
theorem splitOn_append (p : Char → Bool) (a b : List Char) (x : Char) (ha : ∀ c ∈ a, p c = false)
    (hx : p x = true) : splitOn p (a ++ x :: b) = a :: splitOn p b := by
  induction a with
  | nil => simp [splitOn, hx]
  | cons c cs ih =>
    have hc := ha c (by simp)
    have ih := ih fun d hd => ha d (by simp [hd])
    simp only [List.cons_append, splitOn, hc, Bool.false_eq_true, if_false, ih]

/-- The pieces between the separators `x`, joined by `x`, are the text. -/
theorem intercalate_splitOn (x : Char) (l : List Char) :
    List.intercalate [x] (splitOn (· == x) l) = l := by
  induction l with
  | nil => rfl
  | cons c cs ih =>
    unfold splitOn
    cases h : splitOn (· == x) cs with
    | nil => exact absurd h (splitOn_ne_nil _ cs)
    | cons w ws =>
      rw [h] at ih
      by_cases hc : c = x
      · simpa [hc, List.intercalate] using ih
      · cases ws <;> simpa [hc, List.intercalate] using ih

theorem cutAt_append (x : Char) (a b : List Char) (ha : x ∉ a) :
    cutAt x (a ++ x :: b) = some (a, b) := by
  induction a with
  | nil => simp [cutAt]
  | cons c cs ih =>
    have hc : c ≠ x := fun h => ha (by simp [h])
    have ih := ih fun h => ha (by simp [h])
    simp only [List.cons_append, cutAt, if_neg hc, ih]

theorem cutAt_eq_some (x : Char) (l a b : List Char) (h : cutAt x l = some (a, b)) :
    l = a ++ x :: b ∧ x ∉ a := by
  induction l generalizing a with
  | nil => simp [cutAt] at h
  | cons c cs ih =>
    unfold cutAt at h
    split at h
    · rename_i hc
      simp only [Option.some.injEq, Prod.mk.injEq] at h
      obtain ⟨rfl, rfl⟩ := h
      simp [hc]
    · rename_i hc
      split at h
      · cases h
      · rename_i a' b' hab
        simp only [Option.some.injEq, Prod.mk.injEq] at h
        obtain ⟨rfl, rfl⟩ := h
        obtain ⟨h1, h2⟩ := ih a' hab
        refine ⟨by rw [h1]; rfl, ?_⟩
        simp only [List.mem_cons, not_or]
        exact ⟨fun h => hc h.symm, h2⟩

/-- A text whose first and last characters are no whitespace is not changed by trimming. -/
theorem trim_eq_self (l : List Char) (h1 : ∀ c, l.head? = some c → isSpace c = false)
    (h2 : ∀ c, l.getLast? = some c → isSpace c = false) : trim l = l := by
  have hd : ∀ m : List Char, (∀ c, m.head? = some c → isSpace c = false) →
      m.dropWhile isSpace = m := by
    intro m hm
    cases m with
    | nil => rfl
    | cons c cs => simp [hm c rfl]
  unfold trim
  rw [hd l h1, hd l.reverse (by simpa using h2), List.reverse_reverse]

/-! ### Integers -/

theorem isDigit_digit (n : Nat) (h : n < 10) : isDigit (Char.ofNat (48 + n)) = true := by
  interval_cases n <;> decide

theorem toNat_digit (n : Nat) (h : n < 10) : (Char.ofNat (48 + n)).toNat - 48 = n := by
  interval_cases n <;> decide

theorem digitsValue_concat (cs : List Char) (c : Char) :
    digitsValue (cs ++ [c]) = 10 * digitsValue cs + (c.toNat - 48) := by
  simp [digitsValue, List.foldl_append]

/-- The value of a number's decimal digits is the number. -/
theorem digitsValue_decimalDigits (fuel n : Nat) (h : n < 10 ^ fuel) :
    digitsValue (decimalDigits fuel n) = n := by
  induction fuel generalizing n with
  | zero =>
    obtain rfl : n = 0 := by simpa using h
    rfl
  | succ fuel ih =>
    unfold decimalDigits
    split
    · rename_i hn
      simp only [digitsValue, List.foldl_cons, List.foldl_nil, toNat_digit n hn]
      omega
    · have hp : 10 ^ (fuel + 1) = 10 ^ fuel * 10 := pow_succ 10 fuel
      rw [digitsValue_concat, ih (n / 10) (by omega), toNat_digit _ (Nat.mod_lt _ (by omega))]
      omega

theorem decimalDigits_isDigit (fuel n : Nat) : ∀ c ∈ decimalDigits fuel n, isDigit c = true := by
  induction fuel generalizing n with
  | zero => simp [decimalDigits]
  | succ fuel ih =>
    unfold decimalDigits
    split
    · rename_i hn
      simpa using isDigit_digit n hn
    · intro c hc
      rcases List.mem_append.mp hc with hc | hc
      · exact ih _ c hc
      · rw [List.mem_singleton] at hc
        rw [hc]
        exact isDigit_digit _ (Nat.mod_lt _ (by omega))

theorem decimalDigits_ne_nil (fuel n : Nat) : decimalDigits (fuel + 1) n ≠ [] := by
  unfold decimalDigits
  split <;> simp

theorem parseNat?_decimalDigits (n : Nat) (h : n < 10 ^ 10) :
    parseNat? (decimalDigits 10 n) = some n := by
  have h1 : (decimalDigits 10 n).isEmpty = false := by
    simpa using decimalDigits_ne_nil 9 n
  have h2 : (decimalDigits 10 n).all isDigit = true := by
    simpa using decimalDigits_isDigit 10 n
  simp only [parseNat?, h1, h2, Bool.not_false, Bool.and_self, if_true,
    digitsValue_decimalDigits 10 n h]

theorem parseAnyInt?_of_digits (cs : List Char) (h : ∀ c ∈ cs, isDigit c = true) :
    parseAnyInt? cs = (parseNat? cs).map fun n : Nat => (n : Int) := by
  unfold parseAnyInt?
  split
  · exact absurd (h '-' (by simp)) (by decide)
  · rfl

theorem s32_range (v : Word) : -2147483648 ≤ s32 v ∧ s32 v ≤ 2147483647 := by
  have h1 := BitVec.le_toInt v
  have h2 := BitVec.toInt_lt (x := v)
  simp only [s32]
  omega

/-- The decimal text of a word parses to its signed value. -/
theorem parseInt?_decimal (v : Word) : parseInt? (decimal v) = some (s32 v) := by
  have hb := s32_range v
  have hany : parseAnyInt? (decimal v) = some (s32 v) := by
    unfold decimal
    split
    · rename_i hn
      have hp := parseNat?_decimalDigits (-s32 v).toNat (by omega)
      simp only [parseAnyInt?, hp, Option.map_some, Option.some.injEq]
      omega
    · rename_i hn
      have hp := parseNat?_decimalDigits (s32 v).toNat (by omega)
      rw [parseAnyInt?_of_digits _ (decimalDigits_isDigit 10 _), hp, Option.map_some,
        Option.some.injEq]
      omega
  simp only [parseInt?, hany, if_pos hb]

/-- What an integer literal is made of. -/
def isIntChar (c : Char) : Bool := isDigit c || c == '-'

theorem decimal_chars (v : Word) : ∀ c ∈ decimal v, isIntChar c = true := by
  intro c hc
  unfold decimal at hc
  split at hc
  · rcases List.mem_cons.mp hc with rfl | hc
    · decide
    · simp [isIntChar, decimalDigits_isDigit 10 _ c hc]
  · simp [isIntChar, decimalDigits_isDigit 10 _ c hc]

theorem decimal_ne_nil (v : Word) : decimal v ≠ [] := by
  unfold decimal
  split
  · simp
  · exact decimalDigits_ne_nil 9 _

theorem parseNat?_chars (cs : List Char) (n : Nat) (h : parseNat? cs = some n) :
    ∀ c ∈ cs, isDigit c = true := by
  unfold parseNat? at h
  split at h
  · rename_i hc
    rw [Bool.and_eq_true, List.all_eq_true] at hc
    exact hc.2
  · cases h

/-- A text that parses as an integer holds digits and minus signs only. -/
theorem parseInt?_chars (cs : List Char) (n : Int) (h : parseInt? cs = some n) :
    ∀ c ∈ cs, isIntChar c = true := by
  unfold parseInt? at h
  cases ha : parseAnyInt? cs with
  | none => simp [ha] at h
  | some m =>
    unfold parseAnyInt? at ha
    split at ha
    · obtain ⟨k, hk, -⟩ := Option.map_eq_some_iff.mp ha
      intro c hc
      rcases List.mem_cons.mp hc with rfl | hc
      · decide
      · simp [isIntChar, parseNat?_chars _ k hk c hc]
    · obtain ⟨k, hk, -⟩ := Option.map_eq_some_iff.mp ha
      intro c hc
      simp [isIntChar, parseNat?_chars _ k hk c hc]

theorem parseInt?_bounds (cs : List Char) (n : Int) (h : parseInt? cs = some n) :
    -2147483648 ≤ n ∧ n ≤ 2147483647 := by
  unfold parseInt? at h
  split at h
  · split at h
    · rename_i hb
      cases h
      exact hb
    · cases h
  · cases h

/-- The ten digits by their codes. -/
theorem isDigit_iff_mem (c : Char) : isDigit c = true ↔ c ∈ "0123456789".toList := by
  constructor
  · intro h
    simp only [isDigit, Bool.and_eq_true, decide_eq_true_eq] at h
    have hc : c = Char.ofNat c.toNat := (Char.ofNat_toNat c).symm
    obtain ⟨h1, h2⟩ := h
    generalize c.toNat = k at hc h1 h2
    subst hc
    interval_cases k <;> decide
  · intro h
    have hall : ("0123456789".toList).all isDigit = true := by decide
    exact List.all_eq_true.mp hall c h

/-- Reading digits from the left gives the sum of the digits' places. -/
theorem digitsValue_eq_decimalValue (cs : List Char) : digitsValue cs = decimalValue cs := by
  have h : ∀ (cs : List Char) (n : Nat),
      cs.foldl (fun n c => 10 * n + (c.toNat - 48)) n = n * 10 ^ cs.length + decimalValue cs := by
    intro cs
    induction cs with
    | nil => simp [decimalValue]
    | cons c cs ih =>
      intro n
      have h48 : '0'.toNat = 48 := rfl
      simp only [List.foldl_cons, ih, decimalValue, List.length_cons, pow_succ, h48]
      ring
  simpa [digitsValue] using h cs 0

theorem parseNat?_eq_some (cs : List Char) (n : Nat) :
    parseNat? cs = some n ↔
      cs ≠ [] ∧ (∀ c ∈ cs, c ∈ "0123456789".toList) ∧ n = decimalValue cs := by
  simp only [parseNat?, digitsValue_eq_decimalValue, ← isDigit_iff_mem]
  split
  · rename_i h
    simp only [Bool.and_eq_true, Bool.not_eq_true', List.isEmpty_eq_false_iff, List.all_eq_true] at h
    rw [Option.some.injEq]
    exact ⟨fun hn => ⟨h.1, h.2, hn.symm⟩, fun hn => hn.2.2.symm⟩
  · rename_i h
    simp only [Bool.and_eq_true, Bool.not_eq_true', List.isEmpty_eq_false_iff, List.all_eq_true] at h
    simp only [reduceCtorEq, false_iff]
    exact fun h' => h ⟨h'.1, h'.2.1⟩

theorem parseAnyInt?_eq_some (cs : List Char) (n : Int) :
    parseAnyInt? cs = some n ↔
      ∃ (negative : Bool) (ds : List Char), cs = (if negative then ['-'] else []) ++ ds ∧ ds ≠ [] ∧
        (∀ c ∈ ds, c ∈ "0123456789".toList) ∧
        n = (if negative then -(decimalValue ds : Int) else (decimalValue ds : Int)) := by
  unfold parseAnyInt?
  split
  · rename_i ds
    simp only [Option.map_eq_some_iff, parseNat?_eq_some]
    constructor
    · rintro ⟨_, ⟨h1, h2, rfl⟩, rfl⟩
      exact ⟨true, ds, rfl, h1, h2, rfl⟩
    · rintro ⟨negative, ds', h, h1, h2, rfl⟩
      cases negative with
      | true =>
        obtain rfl : ds = ds' := by simpa using h
        exact ⟨_, ⟨h1, h2, rfl⟩, rfl⟩
      | false =>
        have h : '-' :: ds = ds' := by simpa using h
        exact absurd (h2 '-' (by simp [← h])) (by decide)
  · rename_i hn
    simp only [Option.map_eq_some_iff, parseNat?_eq_some]
    constructor
    · rintro ⟨_, ⟨h1, h2, rfl⟩, rfl⟩
      exact ⟨false, cs, rfl, h1, h2, rfl⟩
    · rintro ⟨negative, ds', h, h1, h2, rfl⟩
      cases negative with
      | true => exact absurd h (hn ds')
      | false =>
        obtain rfl : cs = ds' := by simpa using h
        exact ⟨_, ⟨h1, h2, rfl⟩, rfl⟩

/-- The integer parser accepts exactly the integer literals (30_encoding.md R85). -/
theorem parseInt?_eq_some (cs : List Char) (n : Int) :
    parseInt? cs = some n ↔ IsIntLiteral cs n := by
  have h : parseInt? cs = some n ↔
      parseAnyInt? cs = some n ∧ -2147483648 ≤ n ∧ n ≤ 2147483647 := by
    unfold parseInt?
    cases ha : parseAnyInt? cs with
    | none => simp
    | some m =>
      simp only [Option.some.injEq]
      split
      · rename_i hb
        simp only [Option.some.injEq]
        exact ⟨fun h => by subst h; exact ⟨rfl, hb⟩, fun h => h.1⟩
      · rename_i hb
        simp only [reduceCtorEq, false_iff]
        rintro ⟨rfl, h⟩
        exact hb h
  rw [h, parseAnyInt?_eq_some, IsIntLiteral]
  constructor
  · rintro ⟨⟨neg, ds, h1, h2, h3, h4⟩, h5⟩
    exact ⟨neg, ds, h1, h2, h3, h4, h5⟩
  · rintro ⟨neg, ds, h1, h2, h3, h4, h5⟩
    exact ⟨⟨neg, ds, h1, h2, h3, h4⟩, h5⟩

/-- A character that is no part of an integer literal does not stand in one. -/
theorem not_mem_of_isIntChar {x : Char} {cs : List Char} (hx : isIntChar x = false)
    (h : ∀ c ∈ cs, isIntChar c = true) : x ∉ cs := by
  intro hm
  have := h x hm
  rw [hx] at this
  cases this

theorem isSpace_of_isIntChar {c : Char} (h : isIntChar c = true) : isSpace c = false := by
  simp only [isIntChar, isDigit, Bool.or_eq_true, Bool.and_eq_true, decide_eq_true_eq,
    beq_iff_eq] at h
  rcases h with h | rfl
  · simp only [isSpace, Bool.or_eq_false_iff, beq_eq_false_iff_ne]
    omega
  · decide

/-! ### Operands -/

theorem parseRegister_eq_value (which : Operand) (cs : List Char) (v : Word) :
    parseRegister which cs = .value v ↔
      ∃ n, parseInt? cs = some n ∧ (0 ≤ n ∧ n < 8) ∧ v = w32 n := by
  unfold parseRegister
  cases h : parseInt? cs with
  | none => simp
  | some n =>
    simp only [Option.some.injEq, exists_eq_left']
    split <;> simp_all [eq_comm]

theorem parseLiteral_eq_value (which : Operand) (cs : List Char) (v : Word) :
    parseLiteral which cs = .value v ↔ ∃ n, parseInt? cs = some n ∧ v = w32 n := by
  unfold parseLiteral
  cases h : parseInt? cs <;> simp [eq_comm]

/-- Three parsed operands assemble to an instruction exactly if none is bad and its record is theirs. -/
theorem assemble_eq_instr (op : Opcode) (r s t : Parsed) (i : Instr) :
    assemble op r s t = .instr i ↔
      ∃ x y z, r = .value x ∧ s = .value y ∧ t = .value z ∧ i.record = ⟨op, x, y, z⟩ := by
  cases r with
  | bad e => simp [assemble]
  | value x =>
    cases s with
    | bad e => simp [assemble]
    | value y =>
      cases t with
      | bad e => simp [assemble]
      | value z =>
        simp only [assemble, Parsed.value.injEq]
        constructor
        · intro h
          split at h
          · rename_i j hj
            cases h
            exact ⟨x, y, z, rfl, rfl, rfl, (build_eq_instr op x y z i).mp hj⟩
          · cases h
          · cases h
        · rintro ⟨x', y', z', rfl, rfl, rfl, h⟩
          rw [(build_eq_instr op _ _ _ i).mpr h]

/-- An opcode that `build` is given is never the thing rejected. -/
theorem build_ne_illFormed_opcode (op : Opcode) (r s t : Word) (n : Nat) :
    build op r s t ≠ .illFormed (.opcode n) := by
  have h1 : ∀ mk, decodeRegs mk r s t ≠ .illFormed (.opcode n) := by
    intro mk; unfold decodeRegs; split <;> simp
  have h2 : ∀ mk, decodeMem mk r s t ≠ .illFormed (.opcode n) := by
    intro mk; unfold decodeMem; split <;> simp
  cases op <;> first | exact h1 _ | exact h2 _

/-- Assembling gives an instruction or `InvalidArguments` naming the opcode. -/
theorem assemble_cases (op : Opcode) (r s t : Parsed) :
    (∃ i, assemble op r s t = .instr i) ∨
      ∃ why, assemble op r s t = .error (.invalidArguments op why) := by
  unfold assemble
  split
  · exact .inr ⟨_, rfl⟩
  · exact .inr ⟨_, rfl⟩
  · exact .inr ⟨_, rfl⟩
  · split
    · exact .inl ⟨_, rfl⟩
    · exact .inr ⟨_, rfl⟩
    · rename_i h
      exact absurd h (build_ne_illFormed_opcode _ _ _ _ _)

/-- Decoding operands gives an instruction or `InvalidArguments` naming the opcode. -/
theorem decodeOperands_cases (op : Opcode) (cs : List Char) :
    (∃ i, decodeOperands op cs = .instr i) ∨
      ∃ why, decodeOperands op cs = .error (.invalidArguments op why) := by
  have h1 : (∃ i, decodeTriple op cs = .instr i) ∨
      ∃ why, decodeTriple op cs = .error (.invalidArguments op why) := by
    unfold decodeTriple
    split
    · exact assemble_cases _ _ _ _
    · exact .inr ⟨_, rfl⟩
  have h2 : (∃ i, decodeBracketed op cs = .instr i) ∨
      ∃ why, decodeBracketed op cs = .error (.invalidArguments op why) := by
    unfold decodeBracketed
    split
    · exact .inr ⟨_, rfl⟩
    · split
      · exact .inr ⟨_, rfl⟩
      · split
        · exact assemble_cases _ _ _ _
        · exact .inr ⟨_, rfl⟩
  unfold decodeOperands
  split <;> assumption

/-! ### Mnemonics -/

@[simp] theorem opcodeOf?_mnemonicOf (o : Opcode) : opcodeOf? (mnemonicOf o) = some o := by
  cases o <;> decide

theorem mnemonicOf_chars (o : Opcode) :
    ∀ c ∈ mnemonicOf o, isAlnum c = true ∧ isSpace c = false ∧ c ≠ '*' := by
  have h : (mnemonicOf o).all (fun c => isAlnum c && !isSpace c && c != '*') = true := by
    cases o <;> rfl
  intro c hc
  simpa [and_assoc] using List.all_eq_true.mp h c hc

theorem mnemonicOf_ne_nil (o : Opcode) : mnemonicOf o ≠ [] := by cases o <;> decide

end Sys2Proof.Machine
end

