-- ==== Sys2Proof/Laws/Loader.lean ====
section
/-! SUPPORT. The laws of the loader: what placing instructions does to the slots, and how many
instructions a source text gives. -/

namespace Sys2Proof.Machine

/-- Placing changes instruction memory only. -/
theorem State.placeFrom_eq (s : State) (p : Nat) (is : List Instr) :
    s.placeFrom p is = { s with imem := (s.placeFrom p is).imem } := by
  induction is generalizing s p with
  | nil => rfl
  | cons i is ih =>
    unfold State.placeFrom
    rw [ih]
    rfl

/-- The slots after placing: the `k`-th instruction stands in slot `p + k`, the others are as before. -/
theorem State.readSlot_placeFrom (s : State) (p : Nat) (is : List Instr) (q : Nat) :
    (s.placeFrom p is).readSlot q =
      if h : p ≤ q ∧ q - p < is.length then encode is[q - p] else s.readSlot q := by
  induction is generalizing s p with
  | nil => simp [State.placeFrom]
  | cons i is ih =>
    unfold State.placeFrom
    rw [ih, State.readSlot_writeSlot]
    by_cases hq : q = p
    · subst hq
      have h1 : ¬ (q + 1 ≤ q ∧ q - (q + 1) < is.length) := by omega
      simp
    · by_cases h1 : p + 1 ≤ q ∧ q - (p + 1) < is.length
      · have h2 : p ≤ q ∧ q - p < (i :: is).length := by
          simp only [List.length_cons]
          omega
        have h3 : q - p = (q - (p + 1)) + 1 := by omega
        rw [dif_pos h1, dif_pos h2]
        simp [h3]
      · have h2 : ¬ (p ≤ q ∧ q - p < (i :: is).length) := by
          simp only [List.length_cons]
          omega
        rw [dif_neg h1, dif_neg h2, if_neg hq]

/-- Placing keeps the canonical form of instruction memory. -/
theorem State.placeFrom_wf (s : State) (p : Nat) (is : List Instr)
    (h : Memory.wf slotReset s.imem) : Memory.wf slotReset (s.placeFrom p is).imem := by
  induction is generalizing s p with
  | nil => exact h
  | cons i is ih => exact ih _ _ (Memory.write_wf _ _ _ _ h)

/-- Placing below the capacity keeps every slot below it. -/
theorem State.placeFrom_within (s : State) (p cap : Nat) (is : List Instr)
    (h : Memory.within cap s.imem) (hp : p + is.length ≤ cap) :
    Memory.within cap (s.placeFrom p is).imem := by
  induction is generalizing s p with
  | nil => exact h
  | cons i is ih =>
    simp only [List.length_cons] at hp
    exact ih _ _ (Memory.write_within _ _ _ _ _ h (by omega)) (by omega)

/-- A program fits the free slots. -/
theorem decodeLines_length (n free : Nat) (ls : List (List Char)) (is : List Instr)
    (h : decodeLines n free ls = .ok is) : is.length ≤ free := by
  induction ls generalizing n free is with
  | nil =>
    cases h
    exact Nat.zero_le _
  | cons l ls ih =>
    unfold decodeLines at h
    split at h
    · exact ih _ _ _ h
    · cases h
    · split at h
      · cases h
      · rename_i free'
        cases hp : decodeLines (n + 1) free' ls with
        | bad e => simp [hp, Program.cons] at h
        | ok js =>
          simp only [hp, Program.cons, Program.ok.injEq] at h
          subst h
          have := ih _ _ _ hp
          simp only [List.length_cons]
          omega

end Sys2Proof.Machine
end

