-- ==== Sys2Proof/Laws/PerInstr.lean ====
section
/-! SUPPORT. For every instruction, where its opcode number and its operands stand in its word
(30_encoding.md R73, R74), and that the word is well-formed (R77). -/

namespace Sys2Proof.Laws.EncodeLayout

/-- The word of `i` holds the number of its opcode in bits 100 to 96 and its operands in bits 95 to 64,
63 to 32 and 31 to 0, and is well-formed. -/
def Statement (i : Instr) : Prop :=
  ((encode i).extractLsb' 96 5).toNat = i.record.op.number ∧
    (encode i).extractLsb' 64 32 = i.record.r ∧ (encode i).extractLsb' 32 32 = i.record.s ∧
    (encode i).extractLsb' 0 32 = i.record.t ∧ wordWellFormed (encode i) = true

/-- The layout of any instruction, from the packing of its record. -/
theorem of_record (i : Instr) : Statement i := by
  have hf : fieldsOf (encode i) = i.record.fields := fieldsOf_packFields _
  have hn : i.record.fields.op.toNat = i.record.op.number := by
    have := number_le i.record.op
    simp only [Record.fields, BitVec.toNat_ofNat]
    omega
  have h1 := congrArg Fields.op hf
  refine ⟨?_, congrArg Fields.r hf, congrArg Fields.s hf, congrArg Fields.t hf, ?_⟩
  · rw [← hn, ← h1]; rfl
  · have hw := record_wellFormed i
    have h6 := number_registerOnly i.record.op
    have hle := number_le i.record.op
    simp only [wordWellFormed, hf, Fields.wellFormed, hn]
    simp only [Record.wellFormed, Bool.and_eq_true] at hw
    obtain ⟨⟨hr, ht⟩, hs⟩ := hw
    cases hfmt : i.record.op.format <;> simp_all [Record.fields]

theorem halt (r s t : RegIdx) : Statement (.halt r s t) := of_record _
theorem inp (r s t : RegIdx) : Statement (.inp r s t) := of_record _
theorem out (r s t : RegIdx) : Statement (.out r s t) := of_record _
theorem add (r s t : RegIdx) : Statement (.add r s t) := of_record _
theorem sub (r s t : RegIdx) : Statement (.sub r s t) := of_record _
theorem mul (r s t : RegIdx) : Statement (.mul r s t) := of_record _
theorem div (r s t : RegIdx) : Statement (.div r s t) := of_record _
theorem ld (r : RegIdx) (s : Word) (t : RegIdx) : Statement (.ld r s t) := of_record _
theorem st (r : RegIdx) (s : Word) (t : RegIdx) : Statement (.st r s t) := of_record _
theorem lda (r : RegIdx) (s : Word) (t : RegIdx) : Statement (.lda r s t) := of_record _
theorem ldc (r : RegIdx) (s : Word) (t : RegIdx) : Statement (.ldc r s t) := of_record _
theorem jlt (r : RegIdx) (s : Word) (t : RegIdx) : Statement (.jlt r s t) := of_record _
theorem jle (r : RegIdx) (s : Word) (t : RegIdx) : Statement (.jle r s t) := of_record _
theorem jgt (r : RegIdx) (s : Word) (t : RegIdx) : Statement (.jgt r s t) := of_record _
theorem jge (r : RegIdx) (s : Word) (t : RegIdx) : Statement (.jge r s t) := of_record _
theorem jeq (r : RegIdx) (s : Word) (t : RegIdx) : Statement (.jeq r s t) := of_record _
theorem jne (r : RegIdx) (s : Word) (t : RegIdx) : Statement (.jne r s t) := of_record _

end Sys2Proof.Laws.EncodeLayout
end

