-- ==== Sys2Proof/Laws/Step.lean ====
section
/-! SUPPORT. What a step can do, said once (`step_cases`), and the laws of the pieces of a step that are
not the instruction's body. -/

namespace Sys2Proof.Machine

/-! ### The pieces of a step -/

theorem State.traced_eq (s : State) (i : Instr) :
    s.traced i = { s with events := s.events ++ traceEvents s i } := by
  unfold State.traced traceEvents State.emit
  split <;> simp

theorem traceEvents_advance (s : State) (i : Instr) : traceEvents s.advance i = traceEvents s i := rfl

/-- The body starts in the advanced state with the trace event made. -/
theorem State.bodyStart_eq (s : State) (i : Instr) :
    s.bodyStart i =
      { s.setReg pcReg (w32 (s32 s.pc + 1)) with events := s.events ++ traceEvents s i } := by
  unfold State.bodyStart
  rw [State.traced_eq]
  rfl

@[simp] theorem State.bodyStart_cfg (s : State) (i : Instr) : (s.bodyStart i).cfg = s.cfg := by
  rw [State.bodyStart_eq]; rfl

@[simp] theorem State.bodyStart_dmem (s : State) (i : Instr) : (s.bodyStart i).dmem = s.dmem := by
  rw [State.bodyStart_eq]; rfl

@[simp] theorem State.bodyStart_imem (s : State) (i : Instr) : (s.bodyStart i).imem = s.imem := by
  rw [State.bodyStart_eq]; rfl

@[simp] theorem State.bodyStart_cpuState (s : State) (i : Instr) :
    (s.bodyStart i).cpuState = s.cpuState := by rw [State.bodyStart_eq]; rfl

@[simp] theorem State.bodyStart_traceEnabled (s : State) (i : Instr) :
    (s.bodyStart i).traceEnabled = s.traceEnabled := by rw [State.bodyStart_eq]; rfl

@[simp] theorem State.bodyStart_inputs (s : State) (i : Instr) :
    (s.bodyStart i).inputs = s.inputs := by rw [State.bodyStart_eq]; rfl

@[simp] theorem State.bodyStart_inputCount (s : State) (i : Instr) :
    (s.bodyStart i).inputCount = s.inputCount := by rw [State.bodyStart_eq]; rfl

@[simp] theorem State.bodyStart_events (s : State) (i : Instr) :
    (s.bodyStart i).events = s.events ++ traceEvents s i := by rw [State.bodyStart_eq]

@[simp] theorem State.bodyStart_readData (s : State) (i : Instr) (a : Nat) :
    (s.bodyStart i).readData a = s.readData a := by rw [State.bodyStart_eq]; rfl

@[simp] theorem State.bodyStart_readSlot (s : State) (i : Instr) (p : Nat) :
    (s.bodyStart i).readSlot p = s.readSlot p := by rw [State.bodyStart_eq]; rfl

theorem State.bodyStart_reg (s : State) (i : Instr) (k : RegIdx) :
    (s.bodyStart i).reg k = if k = pcReg then w32 (s32 s.pc + 1) else s.reg k := by
  rw [State.bodyStart_eq]
  exact State.reg_setReg s pcReg k _

@[simp] theorem State.bodyStart_pcReg (s : State) (i : Instr) :
    (s.bodyStart i).reg pcReg = w32 (s32 (s.reg pcReg) + 1) := by
  simp [State.bodyStart_reg]

theorem State.bodyStart_reg_of_ne (s : State) (i : Instr) (k : RegIdx) (h : k ≠ pcReg) :
    (s.bodyStart i).reg k = s.reg k := by simp [State.bodyStart_reg, h]

@[simp] theorem State.bodyStart_nextInput (s : State) (i : Instr) :
    (s.bodyStart i).nextInput = s.nextInput := by
  simp [State.nextInput]

/-- The report is an event and nothing else. -/
theorem State.reported_eq (s : State) :
    s.reported = { s with events := s.events ++
      (if s.cpuState = .ok then [] else [.report s.cpuState]) } := by
  unfold State.reported State.emit
  by_cases h : s.cpuState = .ok
  · simp only [h, if_true, List.append_nil]
    rw [← h]
  · simp only [h, if_false]

@[simp] theorem State.reported_cfg (s : State) : s.reported.cfg = s.cfg := by
  rw [State.reported_eq]

@[simp] theorem State.reported_dmem (s : State) : s.reported.dmem = s.dmem := by
  rw [State.reported_eq]

@[simp] theorem State.reported_imem (s : State) : s.reported.imem = s.imem := by
  rw [State.reported_eq]

@[simp] theorem State.reported_cpuState (s : State) : s.reported.cpuState = s.cpuState := by
  rw [State.reported_eq]

@[simp] theorem State.reported_traceEnabled (s : State) :
    s.reported.traceEnabled = s.traceEnabled := by rw [State.reported_eq]

@[simp] theorem State.reported_inputs (s : State) : s.reported.inputs = s.inputs := by
  rw [State.reported_eq]

@[simp] theorem State.reported_inputCount (s : State) : s.reported.inputCount = s.inputCount := by
  rw [State.reported_eq]

@[simp] theorem State.reported_reg (s : State) (k : RegIdx) : s.reported.reg k = s.reg k := by
  rw [State.reported_eq]; rfl

@[simp] theorem State.reported_readData (s : State) (a : Nat) :
    s.reported.readData a = s.readData a := by rw [State.reported_eq]; rfl

@[simp] theorem State.reported_readSlot (s : State) (p : Nat) :
    s.reported.readSlot p = s.readSlot p := by rw [State.reported_eq]; rfl

theorem State.reported_events (s : State) :
    s.reported.events =
      s.events ++ (if s.cpuState = .ok then [] else [.report s.cpuState]) := by
  rw [State.reported_eq]

/-! ### The step -/

theorem State.pcInRange_iff (s : State) :
    s.pcInRange = true ↔ 0 ≤ s32 s.pc ∧ s32 s.pc < (s.cfg.cap : Int) := inRange_iff _ _

/-- The advance of an in-range program counter does not overflow (10_state.md R25). -/
theorem s32_advance (s : State) (hc : s.cfg.wf) (h : s.pcInRange = true) :
    s32 (w32 (s32 s.pc + 1)) = s32 s.pc + 1 := by
  have h := s.pcInRange_iff.mp h
  have := hc.2
  exact s32_w32 _ (by omega)

/-- A step that fetches `i` is the body of `i` with the report after it. -/
theorem Fetches.step_eq {s : State} {i : Instr} (h : Fetches s i) :
    step s = endStep (exec i (s.bodyStart i)) := by
  have hr : s.pcInRange = true := s.pcInRange_iff.mpr ⟨h.low, h.high⟩
  have hd : decode s.fetchWord = .instr i := h.decoded
  unfold step
  rw [if_pos h.capacity, if_pos h.running, if_pos hr, hd]

theorem Fetches.pcInRange {s : State} {i : Instr} (h : Fetches s i) : s.pcInRange = true :=
  s.pcInRange_iff.mpr ⟨h.low, h.high⟩

/-- The step that fetches `i` when the body of `i` is known. -/
theorem Fetches.step_next {s t : State} {i : Instr} (h : Fetches s i)
    (ht : exec i (s.bodyStart i) = .next t) : step s = .next t.reported := by
  rw [h.step_eq, ht]; rfl

/-- Everything a step that answers can do. -/
theorem step_cases (s t : State) (h : step s = .next t) :
    s.cfg.wf ∧
    ((s.cpuState ≠ .ok ∧ t = s.reported) ∨
     (s.cpuState = .ok ∧ s.pcInRange = false ∧ t = (s.raise .instructionFault).reported) ∨
     (∃ i q, Fetches s i ∧ exec i (s.bodyStart i) = .next q ∧ t = q.reported)) := by
  unfold step at h
  split at h
  · rename_i hc
    refine ⟨hc, ?_⟩
    split at h
    · rename_i hk
      split at h
      · rename_i hp
        split at h
        · rename_i i hd
          obtain ⟨q, hq⟩ := exec_answers i (s.bodyStart i)
          rw [hq] at h
          have hr := s.pcInRange_iff.mp hp
          exact .inr (.inr ⟨i, q, ⟨hc, hk, hr.1, hr.2, hd⟩, hq, by cases h; rfl⟩)
        · cases h
      · rename_i hp
        exact .inr (.inl ⟨hk, by simpa using hp, by cases h; rfl⟩)
    · rename_i hk
      exact .inl ⟨hk, by cases h; rfl⟩
  · cases h

/-- Two instructions fetched in one state are the same. -/
theorem Fetches.unique {s : State} {i j : Instr} (hi : Fetches s i) (hj : Fetches s j) : i = j := by
  have := hi.decoded.symm.trans hj.decoded
  simpa using this

/-- No step touches the configuration, instruction memory or the trace flag. -/
theorem step_keeps (s t : State) (h : step s = .next t) :
    t.cfg = s.cfg ∧ t.imem = s.imem ∧ t.traceEnabled = s.traceEnabled := by
  rcases (step_cases s t h).2 with ⟨-, rfl⟩ | ⟨-, -, rfl⟩ | ⟨i, q, -, hq, rfl⟩
  · simp
  · simp
  · simpa using exec_keeps i _ _ hq

/-! ### Several steps -/

@[simp] theorem core_run_zero (s : State) : Host.Core.run Sys2Proof.core 0 s = .next s := rfl

/-- One step at the start of several. -/
theorem core_run_succ (n : Nat) (s t : State) (h : step s = .next t) :
    Host.Core.run Sys2Proof.core (n + 1) s = Host.Core.run Sys2Proof.core n t := by
  have h' : Sys2Proof.core.step s = .next t := h
  simp only [Host.Core.run, h']

/-- Several steps that answer begin with one that does. -/
theorem core_run_succ_cases (n : Nat) (s q : State)
    (h : Host.Core.run Sys2Proof.core (n + 1) s = .next q) :
    ∃ t, step s = .next t ∧ Host.Core.run Sys2Proof.core n t = .next q := by
  cases hs : step s with
  | next t => exact ⟨t, rfl, by rw [← h, core_run_succ n s t hs]⟩
  | fault f => exact nomatch f
  | refused r =>
    have h' : Sys2Proof.core.step s = .refused r := hs
    simp only [Host.Core.run, h'] at h
    cases h

end Sys2Proof.Machine
end

