-- ==== Sys2Proof/Tests/Slice0.lean ====
section
/-! SUPPORT. Tests of this package's own: ill-formed terms, words and texts the spec gives, one-step vectors of
95_test_vectors.md, and for every statement with hypotheses a state and operands that meet them. -/

namespace Sys2Proof.Tests

open Sys2Proof.Machine

/-! ### Helpers -/

/-- The machine after power-on with the given registers (`x[7]` last) and a word in the slot of `x[7]`. -/
def withWord (x : Vector Word 8) (w : InstrWord) : State :=
  State.placeAtPc { State.reset with regs := x } w

/-- The same with an instruction in the slot of `x[7]`. -/
def start (x : Vector Word 8) (i : Instr) : State := withWord x (encode i)

/-- What the next step leaves, observed by `f`. -/
def after {α : Type} (s : State) (f : State → α) : Option α :=
  match step s with
  | .next t => some (f t)
  | .fault _ => none
  | .refused _ => none

/-- A register, the program counter and `cpu_state`. -/
def look (k : RegIdx) (t : State) : Int × Int × CpuState := (s32 (t.reg k), s32 t.pc, t.cpuState)

/-! ### Well-formedness: each check refuses an ill-formed term (30_encoding.md R77, 95_test_vectors.md 2.2) -/

theorem test_wf_opcode_17 : Fields.wellFormed ⟨17, 0, 0, 0⟩ = false := by decide
theorem test_wf_r_8 : Fields.wellFormed ⟨3, 8, 0, 0⟩ = false := by decide
theorem test_wf_r_negative : Fields.wellFormed ⟨9, -1, 0, 0⟩ = false := by decide
theorem test_wf_t_8 : Fields.wellFormed ⟨7, 0, 0, 8⟩ = false := by decide
theorem test_wf_s_9_in_add : Fields.wellFormed ⟨3, 1, 9, 1⟩ = false := by decide
theorem test_wf_s_9_in_ldc : Fields.wellFormed ⟨10, 1, 9, 0⟩ = true := by decide
theorem test_wf_record_r : Record.wellFormed ⟨.st, 8, 0, 0⟩ = false := by decide
theorem test_wf_record_s : Record.wellFormed ⟨.mul, 0, 8, 0⟩ = false := by decide
theorem test_wf_record_t : Record.wellFormed ⟨.jne, 0, 0, 8⟩ = false := by decide
theorem test_wf_capacity_0 : ¬ Config.wf ⟨0, false⟩ := by decide
theorem test_wf_capacity_too_large : ¬ Config.wf ⟨2147483648, false⟩ := by decide

/-! ### Words of the spec (R140 to R185 examples, 95_test_vectors.md 2.2 to 2.8) -/

theorem test_word_halt : decode 0x00000000000000000000000000 = .instr (.halt 0 0 0) := by decide
theorem test_word_in : decode 0x01000000010000000000000000 = .instr (.inp 1 0 0) := by decide
theorem test_word_out : decode 0x02000000020000000000000000 = .instr (.out 2 0 0) := by decide
theorem test_word_add : decode 0x03000000030000000100000002 = .instr (.add 3 1 2) := by decide
theorem test_word_sub : decode 0x04000000010000000100000003 = .instr (.sub 1 1 3) := by decide
theorem test_word_mul : decode 0x05000000050000000300000004 = .instr (.mul 5 3 4) := by decide
theorem test_word_div : decode 0x06000000050000000500000002 = .instr (.div 5 5 2) := by decide
theorem test_word_ld : decode 0x07000000027FFFFFFF00000001 = .instr (.ld 2 2147483647 1) := by decide
theorem test_word_st : decode 0x0800000001FFFFFFFF00000000 = .instr (.st 1 (-1) 0) := by decide
theorem test_word_lda : decode 0x0900000006FFFFFFFF00000006 = .instr (.lda 6 (-1) 6) := by decide
theorem test_word_ldc : decode 0x0A000000018000000000000000 = .instr (.ldc 1 (-2147483648) 0) := by
  decide
theorem test_word_jlt : decode 0x0B000000010000000200000007 = .instr (.jlt 1 2 7) := by decide
theorem test_word_jle : decode 0x0C000000010000000200000007 = .instr (.jle 1 2 7) := by decide
theorem test_word_jgt : decode 0x0D00000001FFFFFFFD00000007 = .instr (.jgt 1 (-3) 7) := by decide
theorem test_word_jge : decode 0x0E000000010000000200000007 = .instr (.jge 1 2 7) := by decide
theorem test_word_jeq : decode 0x0F000000000000138800000000 = .instr (.jeq 0 5000 0) := by decide
theorem test_word_jne : decode 0x1000000007FFFFFFFF00000007 = .instr (.jne 7 (-1) 7) := by decide

/-- W6, W7, W8: ill-formed words are rejected by name. -/
theorem test_word_ill_formed :
    decode 0x11000000000000000000000000 = .illFormed (.opcode 17) ∧
    decode 0x03000000080000000000000000 = .illFormed (.register .r) ∧
    decode 0x03000000010000000900000001 = .illFormed (.register .s) ∧
    decode 0x0A000000010000000900000008 = .illFormed (.register .t) := by decide

/-- W3 and W4 the other way. -/
theorem test_encode :
    encode (.lda 6 (-1) 6) = 0x0900000006FFFFFFFF00000006 ∧
    encode (.jne 7 (-1) 7) = 0x1000000007FFFFFFFF00000007 := by decide

/-- The host's numbers: 104 bits in whole bytes, and a number too wide for a word. -/
theorem test_table_word :
    decodeTableWord 104 0x05000000050000000300000004 = some (.mul 5 3 4) ∧
    decodeTableWord 104 0x20000000000000000000000000 = none := by decide

/-- A word placed in the machine right after reset is run by the very next step (LDC 2,-7(0)). -/
theorem test_with_fetch_word :
    after (State.reset.withFetchWord 104 0x0A00000002FFFFFFF900000000) (look 2) = some (-7, 1, .ok) := by
  decide

/-! ### One-step vectors (95_test_vectors.md Part 2) -/

/-- H1. -/
theorem test_halt : after (start #v[0, 0, 0, 0, 0, 0, 0, 7] (.halt 0 0 0))
    (fun t => (look 7 t, t.events)) = some ((8, 8, .halted), [.report .halted]) := by decide

/-- H3, with the host's answer listed. -/
theorem test_in : after ((start #v[0, 0, 0, 0, 0, 0, 0, 0] (.inp 1 0 0)).supplyInput (-2147483648))
    (look 1) = some (-2147483648, 1, .ok) := by decide

/-- IN with no answer listed still completes: the word is free, the rest is not. -/
theorem test_in_free : after (start #v[0, 0, 0, 0, 0, 0, 0, 0] (.inp 1 0 0)) (look 2) =
    some (0, 1, .ok) := by decide

/-- H6. -/
theorem test_out_pc : after (start #v[0, 0, 0, 0, 0, 0, 0, 6] (.out 7 0 0))
    (fun t => (t.outputs, s32 t.pc)) = some ([7], 7) := by decide

/-- A1. -/
theorem test_add_wraps : after (start #v[0, 2147483647, 1, 0, 0, 0, 0, 2] (.add 3 1 2)) (look 3) =
    some (-2147483648, 3, .ok) := by decide

/-- A4: a computed jump. -/
theorem test_add_pc : after (start #v[0, 3, 0, 0, 0, 0, 0, 10] (.add 7 7 1)) (look 7) =
    some (14, 14, .ok) := by decide

/-- A5. -/
theorem test_sub_wraps : after (start #v[0, -2147483648, 1, 0, 0, 0, 0, 0] (.sub 3 1 2)) (look 3) =
    some (2147483647, 1, .ok) := by decide

/-- A9. -/
theorem test_mul_square : after (start #v[0, 46341, 0, 0, 0, 0, 0, 0] (.mul 1 1 1)) (look 1) =
    some (-2147479015, 1, .ok) := by decide

/-- A11. -/
theorem test_div_truncates : after (start #v[0, -7, 2, 0, 0, 0, 0, 0] (.div 3 1 2)) (look 3) =
    some (-3, 1, .ok) := by decide

/-- A15. -/
theorem test_div_by_zero : after (start #v[0, 5, 0, 77, 0, 0, 0, 3] (.div 3 1 2)) (look 3) =
    some (77, 4, .divideByZero) := by decide

/-- M1: cell 0 holds `CAP - 1` after reset. -/
theorem test_ld_cell_0 : after (start #v[0, 0, 0, 0, 0, 0, 0, 0] (.ld 6 0 0)) (look 6) =
    some (1023, 1, .ok) := by decide

/-- M6: the address wraps and is out of range. -/
theorem test_ld_wrapped_address : after (start #v[0, 1, 0, 0, 0, 0, 0, 0] (.ld 2 2147483647 1))
    (look 2) = some (0, 1, .dataFault) := by decide

/-- M7: the last cell. -/
theorem test_st_last_cell : after (start #v[0, 42, 0, 0, 0, 0, 1023, 2] (.st 1 0 6))
    (fun t => (s32 (t.readData 1023), s32 (t.readData 0), t.cpuState)) = some (42, 1023, .ok) := by
  decide

/-- M8. -/
theorem test_st_past_the_end : after (start #v[0, 42, 0, 0, 0, 0, 1023, 2] (.st 1 1 6))
    (fun t => (t.dmem, s32 t.pc, t.cpuState)) = some ([], 3, .dataFault) := by decide

/-- L3: the relative jump. -/
theorem test_lda_jump : after (start #v[0, 0, 0, 0, 0, 0, 0, 3] (.lda 7 (-4) 7)) (look 7) =
    some (0, 0, .ok) := by decide

/-- L5. -/
theorem test_ldc_ignores_t : after (start #v[0, 0, 0, 0, 0, 9, 0, 3] (.ldc 2 (-7) 5)) (look 2) =
    some (-7, 4, .ok) := by decide

/-- The table of 2.8 at -1, 0 and 1, from slot 3 with `v` in register 1. -/
def jumpTargets (mk : RegIdx → Word → RegIdx → Instr) : List (Option Int) :=
  [-1, 0, 1].map fun v => after (start #v[0, v, 0, 0, 0, 0, 0, 3] (mk 1 2 7)) (fun t => s32 t.pc)

theorem test_jlt : jumpTargets .jlt = [some 6, some 4, some 4] := by decide
theorem test_jle : jumpTargets .jle = [some 6, some 6, some 4] := by decide
theorem test_jgt : jumpTargets .jgt = [some 4, some 4, some 6] := by decide
theorem test_jge : jumpTargets .jge = [some 4, some 6, some 6] := by decide
theorem test_jeq : jumpTargets .jeq = [some 4, some 6, some 4] := by decide
theorem test_jne : jumpTargets .jne = [some 6, some 4, some 6] := by decide

/-- C1 and C2: the fetch check; the program counter is kept. -/
theorem test_pc_at_capacity : after { State.reset with regs := #v[0, 0, 0, 0, 0, 0, 0, 1024] }
    (fun t => (look 7 t, t.events)) =
      some ((1024, 1024, .instructionFault), [.report .instructionFault]) := by decide

theorem test_pc_negative : after { State.reset with regs := #v[0, 0, 0, 0, 0, 0, 0, -1] } (look 7) =
    some (-1, -1, .instructionFault) := by decide

/-- C5: a stopped machine. -/
theorem test_stopped :
    after { State.reset with regs := #v[0, 5, 0, 77, 0, 0, 0, 4], cpuState := .divideByZero }
      (fun t => (look 7 t, t.events)) = some ((4, 4, .divideByZero), [.report .divideByZero]) := by
  decide

/-- C7: the trace event comes first. -/
theorem test_trace : after ((start #v[0, 0, 0, 0, 0, 0, 0, 1] (.lda 7 (-1) 7)).setTrace true)
    (fun t => (s32 t.pc, t.events)) = some (1, [.trace (.lda 7 (-1) 7)]) := by decide

/-- I3: capacity 1. -/
theorem test_initialise_capacity_1 :
    s32 ((State.initialise { State.reset with cfg := ⟨1, false⟩ } true).readData 0) = 0 := by decide

/-! ### Text (95_test_vectors.md 2.1) -/

theorem test_text_accepted :
    decodeLine "   ADD    1,2,3   ".toList = .instr (.add 1 2 3) ∧
    decodeLine "LD 1,-5(6)".toList = .instr (.ld 1 (-5) 6) ∧
    decodeLine "LDC 1,007(0)".toList = .instr (.ldc 1 7 0) := by decide

theorem test_text_discarded :
    decodeLine "* anything at all".toList = .discarded ∧ decodeLine [] = .discarded ∧
    decodeLine ",,,".toList = .discarded := by decide

theorem test_text_token_count :
    decodeLine "HALT".toList = .error .invalidInstruction ∧
    decodeLine "ADD 1, 2, 3".toList = .error .invalidInstruction ∧
    decodeLine "FOO".toList = .error .invalidInstruction := by decide

theorem test_text_opcode :
    decodeLine "NOP 0,0,0".toList = .error .invalidOpcode ∧
    decodeLine "add 1,2,3".toList = .error .invalidOpcode := by decide

theorem test_text_operands :
    decodeLine "ADD 1,2,8".toList = .error (.invalidArguments .add (.registerOutOfRange .t)) ∧
    decodeLine "ADD 1,x,3".toList = .error (.invalidArguments .add (.notInteger .s)) ∧
    decodeLine "LD 0,0,0".toList = .error (.invalidArguments .ld .malformed) ∧
    decodeLine "LD 1,2(3)4".toList = .error (.invalidArguments .ld .malformed) := by decide

theorem test_text_literal :
    decodeLine "LDC 1,2147483648(0)".toList = .error (.invalidArguments .ldc (.notInteger .s)) ∧
    decodeLine "LDC 1,-2147483648(7)".toList = .instr (.ldc 1 (-2147483648) 7) ∧
    decodeLine "LDC 1,+5(0)".toList = .error (.invalidArguments .ldc (.notInteger .s)) := by decide

theorem test_canonical_text : canonicalText (.ld 1 (-5) 6) = "LD 1,-5(6)".toList := by decide

/-! ### Witnesses: a state and operands that meet each statement's hypotheses

A name says which statement's, or which clause's, hypotheses are met. -/

/-- The machine `start x i` fetches `i` when `x[7]` is in range. -/
theorem fetches_start (x : Vector Word 8) (i : Instr)
    (h : (decide (0 ≤ s32 (start x i).pc) && decide (s32 (start x i).pc < 1024) &&
      decide (decode ((start x i).readSlot (s32 (start x i).pc).toNat) = .instr i)) = true) :
    Fetches (start x i) i := by
  simp only [Bool.and_eq_true, decide_eq_true_eq] at h
  exact ⟨by show Config.standard.wf; decide, rfl, h.1.1, h.1.2, h.2⟩

/-- `InitialiseGivesResetValues`, `ResetKeepsTheProgram`, `InitialisedMachineHaltsAtOnce`: both ends of the
range of capacities. -/
theorem witness_capacity : Config.wf ⟨1, false⟩ ∧ Config.wf ⟨2147483647, true⟩ ∧ State.reset.cfg.wf := by
  decide

/-- `OnlyRestartsReturnToOk`: a halted machine that a restart brings back. -/
theorem witness_restart :
    command .initKeep (State.reset.raise .halted) = .next ((State.reset.raise .halted).initialise false) ∧
    (State.reset.raise .halted).cpuState ≠ .ok ∧
    ((State.reset.raise .halted).initialise false).cpuState = .ok := ⟨rfl, by decide, rfl⟩

/-- `OnlyRestartsReturnToOk`, second clause, for loading. -/
theorem witness_restart_load : ∃ t, command (.load []) (State.reset.raise .halted) = .next t := ⟨_, rfl⟩

/-- `LoadPlacesTheProgram`: S7. -/
theorem witness_load : ∃ t, State.reset.loadProgram
    "LDC 1,1(0)\n* comment\nADD 1,1,1\n".toList = .loaded t ∧
    decode (t.readSlot 0) = .instr (.ldc 1 1 0) ∧ decode (t.readSlot 1) = .instr (.add 1 1 1) ∧
    decode (t.readSlot 2) = .instr (.halt 0 0 0) := ⟨_, rfl, by decide, by decide, by decide⟩

/-- `FailedLoadReportsAndClears`: the loader's example of 2.1. -/
theorem witness_load_fails : ∃ t, State.reset.loadProgram "LDC 1,1(0)\nBAD\nADD 1,1,1".toList =
    .failed ⟨2, "BAD".toList, .invalidInstruction⟩ t := ⟨_, rfl⟩

/-- `FailedLoadReportsAndClears`: a line without a slot. -/
theorem witness_load_too_long : ∃ t, State.loadProgram { State.reset with cfg := ⟨1, false⟩ }
    "HALT 0,0,0\nHALT 7,7,7".toList =
      .failed ⟨2, "HALT 7,7,7".toList, .invalidInstruction⟩ t := ⟨_, rfl⟩

/-- `StoppedStepOnlyReports`, `StoppedMachineStaysStopped`. -/
theorem witness_stopped : (State.reset.raise .dataFault).cfg.wf ∧
    (State.reset.raise .dataFault).cpuState ≠ .ok := by decide

/-- `FetchAddressIsChecked`, `FetchFaultReportsOnce`: both sides of the range. -/
theorem witness_fetch_fault :
    (∃ s : State, s.cfg.wf ∧ s.cpuState = .ok ∧ s32 s.pc < 0) ∧
    (∃ s : State, s.cfg.wf ∧ s.cpuState = .ok ∧ s32 s.pc = (s.cfg.cap : Int)) :=
  ⟨⟨{ State.reset with regs := #v[0, 0, 0, 0, 0, 0, 0, -1] }, by decide⟩,
    ⟨{ State.reset with regs := #v[0, 0, 0, 0, 0, 0, 0, 1024] }, by decide⟩⟩

/-- `FetchAddressIsChecked` (in range), `StepRunsTheDecodedInstruction`, `AdvancePrecedesTheBody`,
`EventsOfAStepInOrder`: the last slot. -/
theorem witness_fetches_last_slot :
    Fetches (start #v[0, 0, 0, 0, 0, 0, 0, 1023] (.ldc 1 5 0)) (.ldc 1 5 0) :=
  fetches_start _ _ (by decide)

/-- `StepRunsTheDecodedInstruction`: a body that completes `OK`, and one that stops. -/
theorem witness_body_ends :
    (∃ t, exec (.ldc 1 5 0) (State.reset.bodyStart (.ldc 1 5 0)) = .next t ∧ t.cpuState = .ok) ∧
    (∃ t, exec (.halt 0 0 0) (State.reset.bodyStart (.halt 0 0 0)) = .next t ∧ t.cpuState ≠ .ok) :=
  ⟨⟨_, rfl, by decide⟩, ⟨_, rfl, by decide⟩⟩

/-- `StoppingStepOnlyAdvances`, `AdvancePrecedesTheBody` (last clause), `HaltStopsTheMachine`. -/
theorem witness_stopping_step :
    Fetches (start #v[0, 0, 0, 0, 0, 0, 0, 7] (.halt 0 0 0)) (.halt 0 0 0) ∧
    ∃ t, step (start #v[0, 0, 0, 0, 0, 0, 0, 7] (.halt 0 0 0)) = .next t ∧ t.cpuState ≠ .ok :=
  ⟨fetches_start _ _ (by decide), _, rfl, by decide⟩

/-- `RegisterSevenIsTheNextSlot`, its six clauses; the ST at both ends of the address range. -/
theorem witness_register_seven :
    Fetches (start #v[0, 0, 0, 0, 0, 0, 0, 4] (.add 1 7 7)) (.add 1 pcReg pcReg) ∧
    Fetches (start #v[0, 0, 0, 0, 0, 0, 0, 4] (.st 7 0 0)) (.st pcReg 0 0) ∧
    s32 (((start #v[0, 0, 0, 0, 0, 0, 0, 4] (.st 7 0 0)).bodyStart (.st 7 0 0)).effAddr 0 0) = 0 ∧
    Fetches (start #v[0, 0, 0, 0, 0, 0, 0, 4] (.st 7 1023 0)) (.st pcReg 1023 0) ∧
    s32 (((start #v[0, 0, 0, 0, 0, 0, 0, 4] (.st 7 1023 0)).bodyStart (.st 7 1023 0)).effAddr 1023 0) =
      1023 ∧
    Fetches (start #v[0, 0, 0, 0, 0, 0, 0, 4] (.lda 1 0 7)) (.lda 1 0 pcReg) ∧
    Fetches (start #v[0, 0, 0, 0, 0, 0, 0, 4] (.jeq 7 9 0)) (.jeq pcReg 9 0) ∧
    Fetches (start #v[0, 0, 0, 0, 0, 0, 0, 1] (.lda 7 (-1) 7)) (.lda pcReg (-1) pcReg) ∧
    Fetches (start #v[0, 0, 0, 0, 0, 0, 0, 3] (.ldc 7 1024 0)) (.ldc pcReg 1024 0) ∧
    (1 : RegIdx) ≠ pcReg :=
  ⟨fetches_start _ _ (by decide), fetches_start _ _ (by decide), by decide,
    fetches_start _ _ (by decide), by decide, fetches_start _ _ (by decide),
    fetches_start _ _ (by decide), fetches_start _ _ (by decide), fetches_start _ _ (by decide),
    by decide⟩

/-- R130: `ST 7,0(0)` in slot 4 stores 5. -/
theorem test_st_pc : after (start #v[0, 0, 0, 0, 0, 0, 0, 4] (.st 7 0 0))
    (fun t => s32 (t.readData 0)) = some 5 := by decide

/-- `IllFormedWordGetsNoStep`, both clauses (W6, W7). -/
theorem witness_ill_formed :
    decode ((withWord #v[0, 0, 0, 0, 0, 0, 0, 0] 0x11000000000000000000000000).readSlot 0) =
      .illFormed (.opcode 17) ∧
    decode ((withWord #v[0, 0, 0, 0, 0, 0, 0, 0] 0x03000000080000000000000000).readSlot 0) =
      .illFormed (.register .r) ∧
    (withWord #v[0, 0, 0, 0, 0, 0, 0, 0] 0x11000000000000000000000000).cfg.wf ∧
    ¬ Config.wf ⟨0, false⟩ := by decide

/-- `RunEndsAtTheFirstStop`: a new machine halts at its first step, a budget of 0 leaves it running, and a
halted machine is run with either value of the parameter. Its invariant is `witness_invariant`'s. -/
theorem witness_run : State.reset.cpuState = .ok ∧ (∃ t, run 1 State.reset = .stopped t) ∧
    (∃ t, run 0 State.reset = .running t) ∧
    (∃ q : State, Host.Core.run Sys2Proof.core 1 State.reset = .next q ∧ q.cpuState ≠ .ok) ∧
    (State.reset.raise .halted).cfg.wf ∧ (State.reset.raise .halted).cpuState ≠ .ok ∧
    (∃ t, run 0 { State.reset.raise .halted with cfg := ⟨4, true⟩ } = .stopped t ∧
      t.events = [.report .halted]) :=
  ⟨rfl, ⟨_, rfl⟩, ⟨_, rfl⟩, ⟨_, rfl, by decide⟩, by decide, by decide, ⟨_, rfl, by decide⟩⟩

/-- `InStoresTheHostsWord`: an answer is listed, and none is. -/
theorem witness_inputs : (State.reset.supplyInput 5).inputs = [5] ∧ State.reset.inputs = [] := by decide

/-- `DivQuotientOrFault`, its three clauses. -/
theorem witness_div :
    s32 ((start #v[0, 5, 0, 77, 0, 0, 0, 3] (.div 3 1 2)).reg 2) = 0 ∧
    s32 ((start #v[0, 5, 0, 77, 0, 0, 0, 3] (.div 3 0 1)).reg 1) ≠ 0 ∧
    s32 (((start #v[0, 5, 0, 77, 0, 0, 0, 3] (.div 3 1 2)).bodyStart (.div 3 1 2)).reg 2) = 0 := by
  decide

theorem witness_div_fetches :
    Fetches (start #v[0, 5, 0, 77, 0, 0, 0, 3] (.div 3 1 2)) (.div 3 1 2) :=
  fetches_start _ _ (by decide)

/-- `DivRoundsTowardZero`: next to the overflow. `DivOverflowWraps`: the overflow. -/
theorem witness_div_corner :
    (∃ s : State, s32 (s.reg 1) = -2147483647 ∧ s32 (s.reg 2) = -1) ∧
    (∃ s : State, s32 (s.reg 1) = -2147483648 ∧ s32 (s.reg 2) = -1) :=
  ⟨⟨{ State.reset with regs := #v[0, -2147483647, -1, 0, 0, 0, 0, 0] }, by decide⟩,
    ⟨{ State.reset with regs := #v[0, -2147483648, -1, 0, 0, 0, 0, 0] }, by decide⟩⟩

/-- `EffectiveAddressWraps`, second clause, at the top of the range. -/
theorem witness_address_fits :
    s32 2147483646 + s32 ((start #v[0, 1, 0, 0, 0, 0, 0, 0] (.ld 2 2147483646 1)).reg 1) = 2147483647 := by
  decide

/-- `LoadReadsTheCellOrFaults`, `StoreWritesTheCellOrFaults`: the first and last cell, and the first
addresses outside. -/
theorem witness_data_addresses :
    s32 (State.reset.effAddr 0 0) = 0 ∧ s32 (State.reset.effAddr 1023 0) = 1023 ∧
    s32 (State.reset.effAddr 1024 0) = 1024 ∧ s32 (State.reset.effAddr (-1) 0) = -1 := by decide

/-- `LoadReadsTheCellOrFaults`, `StoreWritesTheCellOrFaults`, last clauses (M3, M10). -/
theorem witness_data_fault :
    Fetches (start #v[0, 0, 0, 0, 0, 0, 1000, 3] (.ld 1 24 6)) (.ld 1 24 6) ∧
    s32 (((start #v[0, 0, 0, 0, 0, 0, 1000, 3] (.ld 1 24 6)).bodyStart (.ld 1 24 6)).effAddr 24 6) = 1024 ∧
    Fetches (start #v[0, 42, 0, 0, 0, 0, 0, 2] (.st 1 (-1) 0)) (.st 1 (-1) 0) ∧
    s32 (((start #v[0, 42, 0, 0, 0, 0, 0, 2] (.st 1 (-1) 0)).bodyStart (.st 1 (-1) 0)).effAddr (-1) 0) =
      -1 :=
  ⟨fetches_start _ _ (by decide), by decide, fetches_start _ _ (by decide), by decide⟩

/-- The six jump statements: values on both sides of each condition. -/
theorem witness_jump_conditions :
    s32 ((start #v[0, -1, 0, 1, 0, 0, 0, 3] (.jlt 1 2 7)).reg 1) < 0 ∧
    s32 ((start #v[0, -1, 0, 1, 0, 0, 0, 3] (.jlt 1 2 7)).reg 2) = 0 ∧
    s32 ((start #v[0, -1, 0, 1, 0, 0, 0, 3] (.jlt 1 2 7)).reg 3) > 0 := by decide

/-- `JumpIsRelativeToNextSlot`, both clauses. -/
theorem witness_relative_jump :
    Fetches (start #v[0, 5, 0, 0, 0, 0, 0, 3] (.jne 1 2 7)) (.jne 1 2 pcReg) ∧
    s32 ((start #v[0, 5, 0, 0, 0, 0, 0, 3] (.jne 1 2 7)).reg 1) ≠ 0 ∧
    Fetches (start #v[0, 0, 0, 0, 0, 0, 0, 3] (.jne 1 2 7)) (.jne 1 2 pcReg) ∧
    s32 ((start #v[0, 0, 0, 0, 0, 0, 0, 3] (.jne 1 2 7)).reg 1) = 0 ∧ (1 : RegIdx) ≠ pcReg :=
  ⟨fetches_start _ _ (by decide), by decide, fetches_start _ _ (by decide), by decide, by decide⟩

/-- `TestingRegisterSevenIsConstant`: slot 0, the smallest advanced value. -/
theorem witness_testing_register_seven :
    Fetches (start #v[0, 0, 0, 0, 0, 0, 0, 0] (.jgt 7 5 0)) (.jgt pcReg 5 0) ∧
    Fetches (start #v[0, 0, 0, 0, 0, 0, 0, 0] (.jge 7 5 0)) (.jge pcReg 5 0) ∧
    Fetches (start #v[0, 0, 0, 0, 0, 0, 0, 0] (.jne 7 5 0)) (.jne pcReg 5 0) ∧
    Fetches (start #v[0, 0, 0, 0, 0, 0, 0, 0] (.jlt 7 5 0)) (.jlt pcReg 5 0) ∧
    Fetches (start #v[0, 0, 0, 0, 0, 0, 0, 0] (.jle 7 5 0)) (.jle pcReg 5 0) ∧
    Fetches (start #v[0, 0, 0, 0, 0, 0, 0, 0] (.jeq 7 5 0)) (.jeq pcReg 5 0) :=
  ⟨fetches_start _ _ (by decide), fetches_start _ _ (by decide), fetches_start _ _ (by decide),
    fetches_start _ _ (by decide), fetches_start _ _ (by decide), fetches_start _ _ (by decide)⟩

/-- A machine of four cells. -/
def fourCells : State := { State.reset with cfg := ⟨4, false⟩ }

/-- `StepKeepsTheInvariant`, `InvariantMachineAlwaysSteps`, `EveryCommandKeepsTheInvariant`. -/
theorem witness_invariant : fourCells.Inv ∧ (∃ t, step fourCells = .next t) ∧
    (∃ t, command .initClear fourCells = .next t) :=
  ⟨⟨by decide, ⟨.nil, by decide⟩, by decide, ⟨.nil, by decide⟩, by decide,
    fun _ => by show wordWellFormed 0 = true; decide⟩, ⟨_, rfl⟩, ⟨_, rfl⟩⟩

/-- `OnlyClearAndLoadChangeTheProgram`: clearing changes a slot. -/
theorem witness_clear_changes_slot :
    ∃ t, command .initClear (start #v[0, 0, 0, 0, 0, 0, 0, 0] (.ldc 1 5 0)) = .next t ∧
      t.readSlot 0 ≠ (start #v[0, 0, 0, 0, 0, 0, 0, 0] (.ldc 1 5 0)).readSlot 0 := ⟨_, rfl, by decide⟩

/-- `OnlyStoreChangesDataMemory`, `PortsAgreeWithTheStep`: a store to the last cell. -/
theorem witness_store_changes_cell :
    ∃ t, step (start #v[0, 42, 0, 0, 0, 0, 1023, 2] (.st 1 0 6)) = .next t ∧
      t.readData 1023 ≠ (start #v[0, 42, 0, 0, 0, 0, 1023, 2] (.st 1 0 6)).readData 1023 :=
  ⟨_, rfl, by decide⟩

/-- `PortsAgreeWithTheStep`: the load and the store of `witness_traffic` are fetched, at addresses 0 and 1023. -/
theorem witness_traffic_fetched :
    Fetches (start #v[0, 0, 0, 0, 0, 0, 0, 0] (.ld 6 0 0)) (.ld 6 0 0) ∧
    s32 (((start #v[0, 0, 0, 0, 0, 0, 0, 0] (.ld 6 0 0)).bodyStart (.ld 6 0 0)).effAddr 0 0) = 0 ∧
    Fetches (start #v[0, 42, 0, 0, 0, 0, 1023, 2] (.st 1 0 6)) (.st 1 0 6) ∧
    s32 (((start #v[0, 42, 0, 0, 0, 0, 1023, 2] (.st 1 0 6)).bodyStart (.st 1 0 6)).effAddr 0 6) =
      1023 :=
  ⟨fetches_start _ _ (by decide), by decide, fetches_start _ _ (by decide), by decide⟩

/-- `PortsAgreeWithTheStep`: a load, a store, and no traffic. -/
theorem witness_traffic :
    (start #v[0, 0, 0, 0, 0, 0, 0, 0] (.ld 6 0 0)).traffic.data = some (.load 0 1023) ∧
    (start #v[0, 42, 0, 0, 0, 0, 1023, 2] (.st 1 0 6)).traffic.data = some (.store 1023 42) ∧
    (State.reset.raise .halted).traffic.fetch = none := by decide

/-- `CpuStateFollowsTheTable`: the step clauses apply to a stopped machine, a bad program counter and a
fetched instruction. -/
theorem witness_cpu_state :
    (∃ t, step (State.reset.raise .halted) = .next t) ∧
    (∃ t, step { State.reset with regs := #v[0, 0, 0, 0, 0, 0, 0, 1024] } = .next t) ∧
    (∃ t, step (start #v[0, 5, 0, 77, 0, 0, 0, 3] (.div 3 1 2)) = .next t) ∧
    (∃ t, State.reset.loadProgram [] = .loaded t) := ⟨⟨_, rfl⟩, ⟨_, rfl⟩, ⟨_, rfl⟩, ⟨_, rfl⟩⟩

/-- `TraceFlagIsObservational`: a run of one step. -/
theorem witness_trace_run : ∃ t : State, Host.Core.run Sys2Proof.core 1 State.reset = .next t := ⟨_, rfl⟩

/-- `CellKeepsItsValueUntilStored`: a step that executes no ST. -/
theorem witness_no_store : (∃ t : State, Host.Core.run Sys2Proof.core 1 State.reset = .next t) ∧
    ∀ (m : Nat) (q : State), m < 1 → Host.Core.run Sys2Proof.core m State.reset = .next q →
      ∀ (r b : RegIdx) (d : Word), Fetches q (.st r d b) →
        s32 ((q.bodyStart (.st r d b)).effAddr d b) ≠ ((5 : Nat) : Int) := by
  refine ⟨⟨_, rfl⟩, fun m q hm hq r b d hf => ?_⟩
  obtain rfl : m = 0 := by omega
  cases hq
  have h : decode (State.reset.readSlot 0) = .instr (.halt 0 0 0) := by decide
  have h2 := hf.decoded
  exact absurd (h.symm.trans h2) (by simp)

/-- `EncodeReadsBackDecode`: W5. -/
theorem witness_decode : ∃ i, decode 0x0A000000018000000000000000 = .instr i := ⟨_, test_word_ldc⟩

/-- `TwoTokenLinesByMnemonic`: a line with a mnemonic, and one without. -/
theorem witness_two_tokens :
    decodeLine "LD 7,-1(0)".toList ≠ .discarded ∧
    tokens (trim "LD 7,-1(0)".toList) = [mnemonicOf .ld, "7,-1(0)".toList] ∧
    decodeLine "add 1,2,3".toList = .error .invalidOpcode ∧
    tokens (trim "add 1,2,3".toList) = ["add".toList, "1,2,3".toList] := by decide

/-- Integer literals of R85: both ends of the range, leading zeros. -/
theorem witness_int_literal :
    IsIntLiteral "-2147483648".toList (-2147483648) ∧ IsIntLiteral "2147483647".toList 2147483647 ∧
    IsIntLiteral "007".toList 7 :=
  ⟨(parseInt?_eq_some _ _).mp (by decide), (parseInt?_eq_some _ _).mp (by decide),
    (parseInt?_eq_some _ _).mp (by decide)⟩

/-- Log 11: text after the `)` is reported before a bad field. -/
theorem test_text_after_bracket :
    decodeLine "LD 9,0(0)4".toList = .error (.invalidArguments .ld .malformed) := by decide

/-- `RegisterOnlyOperandGrammar`, `BracketedOperandGrammar`: accepted operand strings of both shapes. -/
theorem witness_operands :
    Opcode.add.format = .registerOnly ∧ decodeOperands .add "7,0,7".toList = .instr (.add 7 0 7) ∧
    Opcode.ld.format ≠ .registerOnly ∧ decodeOperands .ld "7,-1(0)".toList = .instr (.ld 7 (-1) 0) := by
  decide

end Sys2Proof.Tests
end

section
/-! PROOFS about the fetch check (20_memory.md R56). The in-range half of a step is `Fetches.step_eq`;
its out-of-range half is said here. -/

namespace Sys2Proof.Machine

/-- The fetch check fails on the signed program counter, below 0 or at `CAP` and above. -/
theorem State.pcInRange_eq_false_iff (s : State) :
    s.pcInRange = false ↔ s32 s.pc < 0 ∨ (s.cfg.cap : Int) ≤ s32 s.pc := by
  rw [← Bool.not_eq_true, s.pcInRange_iff]
  omega

/-- A running machine that fails the fetch check raises the fault and reports it; nothing is fetched
(40_step_cycle.md R122, R128). -/
theorem step_of_pc_out_of_range (s : State) (hc : s.cfg.wf) (hk : s.cpuState = .ok)
    (hp : s.pcInRange = false) : step s = .next (s.raise .instructionFault).reported := by
  unfold step
  rw [if_pos hc, if_pos hk, if_neg (by simp [hp])]
  rfl

/-- Settles O10: out of range the step is the raised fault with its report, which touch no register,
cell or slot; in range the machine fetches `i`, so the step is the body of `i`. -/
theorem fetchAddressIsChecked : Obligations.FetchAddressIsChecked := by
  intro s hc hk
  constructor
  · intro hout
    have hp : s.pcInRange = false := s.pcInRange_eq_false_iff.mpr hout
    exact ⟨_, step_of_pc_out_of_range s hc hk hp, by simp, by simp, by simp, by simp⟩
  · intro i hlow hhigh hdec
    have hf : Fetches s i := ⟨hc, hk, hlow, hhigh, hdec⟩
    exact hf.step_eq

end Sys2Proof.Machine
end

section
/-! PROOFS about the text decoder on one line (30_encoding.md R80 to R82, R88): an equation of
`decodeLine` per outcome of its first three checks, and from them which lines are discarded and which
fail with `InvalidInstruction`. -/

namespace Sys2Proof.Machine

/-! ### What each check answers -/

theorem decodeLine_of_isDiscarded {l : List Char} (hd : isDiscarded l = true) :
    decodeLine l = .discarded := by
  unfold decodeLine
  rw [if_pos hd]

theorem decodeLine_of_tokens_length_ne_two {l : List Char} (hd : isDiscarded l = false)
    (ht : (tokens (trim l)).length ≠ 2) : decodeLine l = .error .invalidInstruction := by
  unfold decodeLine
  rw [if_neg (by simp [hd])]
  split
  · next htok => exact absurd (by rw [htok]; rfl) ht
  · rfl

theorem decodeLine_of_opcodeOf?_eq_none {l m ops : List Char} (hd : isDiscarded l = false)
    (ht : tokens (trim l) = [m, ops]) (hm : opcodeOf? m = none) :
    decodeLine l = .error .invalidOpcode := by
  simp [decodeLine, hd, ht, hm]

theorem decodeLine_of_opcodeOf?_eq_some {l m ops : List Char} {op : Opcode}
    (hd : isDiscarded l = false) (ht : tokens (trim l) = [m, ops]) (hm : opcodeOf? m = some op) :
    decodeLine l = decodeOperands op ops := by
  simp [decodeLine, hd, ht, hm]

/-- Past the discard test and the token count a line is an instruction, or fails with a later error
kind: neither `discarded` nor `InvalidInstruction` is answered there. -/
theorem decodeLine_of_tokens_length_eq_two {l : List Char} (hd : isDiscarded l = false)
    (ht : (tokens (trim l)).length = 2) :
    decodeLine l ≠ .discarded ∧ decodeLine l ≠ .error .invalidInstruction := by
  obtain ⟨m, ops, htok⟩ := List.length_eq_two.mp ht
  cases hm : opcodeOf? m with
  | none => simp [decodeLine_of_opcodeOf?_eq_none hd htok hm]
  | some op =>
    rw [decodeLine_of_opcodeOf?_eq_some hd htok hm]
    obtain ⟨i, hi⟩ | ⟨why, hwhy⟩ := decodeOperands_cases op ops
    · simp [hi]
    · simp [hwhy]

/-! ### Discarded lines (30_encoding.md R80) -/

theorem isDiscarded_iff (l : List Char) : isDiscarded l = true ↔
    (∀ c ∈ trim l, isAlnum c = false) ∨ ∃ rest, trim l = '*' :: rest := by
  simp [isDiscarded, List.head?_eq_some_iff]

/-- No check after the discard test discards a line. -/
theorem decodeLine_ne_discarded_iff (l : List Char) :
    decodeLine l ≠ .discarded ↔ isDiscarded l = false := by
  cases hd : isDiscarded l with
  | true => simp [decodeLine_of_isDiscarded hd]
  | false =>
    by_cases ht : (tokens (trim l)).length = 2
    · obtain ⟨hnd, -⟩ := decodeLine_of_tokens_length_eq_two hd ht
      simp [hnd]
    · simp [decodeLine_of_tokens_length_ne_two hd ht]

/-- Settles O56: only the discard test answers `discarded`, and the test is the condition on the
trimmed line. -/
theorem discardedLines : Obligations.DiscardedLines := by
  intro l
  rw [← isDiscarded_iff, ← not_iff_not, Bool.not_eq_true]
  exact decodeLine_ne_discarded_iff l

/-! ### The token count (30_encoding.md R81) -/

/-- Settles O57: a line that is not discarded fails with `InvalidInstruction` at the token count, and
with two tokens no later check answers that error. -/
theorem wrongTokenCountFails : Obligations.WrongTokenCountFails := by
  intro l
  rw [decodeLine_ne_discarded_iff]
  constructor
  · intro h
    have hd : isDiscarded l = false := (decodeLine_ne_discarded_iff l).mp (by simp [h])
    refine ⟨hd, fun ht => ?_⟩
    obtain ⟨-, herr⟩ := decodeLine_of_tokens_length_eq_two hd ht
    exact herr h
  · rintro ⟨hd, ht⟩
    exact decodeLine_of_tokens_length_ne_two hd ht

end Sys2Proof.Machine
end

section
/-! PROOFS about the step cycle (40_step_cycle.md): what the step of a stopped machine answers (R121),
and that the advance of `x[7]` precedes the body and survives a stop (R123). -/

namespace Sys2Proof.Machine

/-! ### The stopped machine (40_step_cycle.md R121) -/

/-- The step of a stopped machine is the report alone. -/
theorem step_of_stopped (s : State) (hc : s.cfg.wf) (hk : s.cpuState ≠ .ok) :
    step s = .next s.reported := by
  unfold step
  rw [if_pos hc, if_neg hk]
  rfl

/-- The frame of the report of a machine that is not `OK`. -/
theorem State.reported_onlyEvent (s : State) (hk : s.cpuState ≠ .ok) :
    OnlyEvent (.report s.cpuState) s s.reported where
  arch := ⟨by simp, by simp, by simp, by simp, by simp, by simp⟩
  inputs := s.reported_inputs
  inputCount := s.reported_inputCount
  events := by rw [s.reported_events, if_neg hk]

/-- Settles O8: the step of a stopped machine is its report, whose frame is that of one event. -/
theorem stoppedStepOnlyReports : Obligations.StoppedStepOnlyReports := by
  intro s hc hk
  exact ⟨s.reported, step_of_stopped s hc hk, s.reported_onlyEvent hk⟩

/-! ### The advance (40_step_cycle.md R123) -/

/-- A fetching step that leaves the machine stopped has, after the advance and the trace, only raised
and reported. -/
theorem Fetches.step_stops {s t : State} {i : Instr} (h : Fetches s i) (ht : step s = .next t)
    (hk : t.cpuState ≠ .ok) : t = ((s.bodyStart i).raise t.cpuState).reported := by
  obtain ⟨q, hq⟩ := exec_answers i (s.bodyStart i)
  have hqt : q.reported = t := by simpa [h.step_next hq] using ht
  have hcpu : t.cpuState = q.cpuState := by rw [← hqt, State.reported_cpuState]
  have hraise : q = (s.bodyStart i).raise q.cpuState :=
    exec_stops i _ _ hq (by simpa using h.running) (hcpu ▸ hk)
  rw [hcpu, ← hraise, hqt]

/-- Settles O13: the body starts at the advanced program counter, which an in-range `p` keeps from
overflowing, and a body that stops has only raised, so `x[7]` is still that. -/
theorem advancePrecedesTheBody : Obligations.AdvancePrecedesTheBody := by
  intro s i hf
  have hpc : (s.bodyStart i).pc = w32 (s32 s.pc + 1) := s.bodyStart_pcReg i
  refine ⟨hpc, ?_, fun t ht hk => ?_⟩
  · rw [hpc, s32_advance s hf.capacity hf.pcInRange]
  · calc t.pc = ((s.bodyStart i).raise t.cpuState).reported.pc := by rw [← hf.step_stops ht hk]
      _ = (s.bodyStart i).pc := by simp
      _ = w32 (s32 s.pc + 1) := hpc

end Sys2Proof.Machine
end

section
/-! PROOFS about HALT and OUT (41_halt_io.md R140, R142). The frames of `raise` and `emit`, and the whole
step of an instruction whose body raises, are said for every instruction: DIV, LD and ST stop the same
way as HALT. -/

namespace Sys2Proof.Machine

/-! ### Frames of the two state operations -/

/-- `raise` sets `cpu_state` and leaves the rest alone (60_exceptions.md R233). -/
theorem State.raise_onlyCpu (s : State) (f : CpuState) : OnlyCpu f s (s.raise f) where
  cpu := s.raise_cpuState f
  cfg := s.raise_cfg f
  regs := s.raise_reg f
  data := s.raise_readData f
  slots := s.raise_readSlot f
  trace := s.raise_traceEnabled f
  host := ⟨s.raise_inputs f, s.raise_inputCount f, s.raise_events f⟩

/-- `emit` appends its event and leaves the rest alone. -/
theorem State.emit_onlyEvent (s : State) (e : Event) : OnlyEvent e s (s.emit e) where
  arch := ⟨s.emit_cfg e, s.emit_reg e, s.emit_readData e, s.emit_readSlot e, s.emit_cpuState e,
    s.emit_traceEnabled e⟩
  inputs := s.emit_inputs e
  inputCount := s.emit_inputCount e
  events := s.emit_events e

/-! ### The step of an instruction that raises -/

/-- If the body of the fetched instruction raises `f`, the step is the advance, the trace, the raise and
the report, so only `x[7]` and `cpu_state` change (40_step_cycle.md R123, R128). -/
theorem Fetches.stopsReporting_of_raise {s : State} {i : Instr} {f : CpuState} (h : Fetches s i)
    (hf : f ≠ .ok) (hx : exec i (s.bodyStart i) = .next ((s.bodyStart i).raise f)) :
    StopsReporting i f s := by
  obtain ⟨-, hpc, -⟩ := advancePrecedesTheBody s i h
  have hreg (k : RegIdx) :
      ((s.bodyStart i).raise f).reported.reg k = (s.bodyStart i).reg k := by simp
  refine ⟨_, h.step_next hx, by simp, ?_, fun k hk => ?_, by simp, by simp, by simp, by simp,
    by simp, by simp, ?_⟩
  · rw [← hpc]
    exact congrArg s32 (hreg pcReg)
  · rw [hreg, s.bodyStart_reg_of_ne i k hk]
  · simp [State.reported_events, hf]

/-! ### HALT and OUT -/

theorem exec_halt (r u v : RegIdx) (s : State) :
    exec (.halt r u v) s = .next (s.raise .halted) := rfl

theorem exec_out (r u v : RegIdx) (s : State) :
    exec (.out r u v) s = .next (s.emit (.output (s.reg r))) := rfl

/-- Settles O19: the body of HALT is `raise HALTED` in every state, so its frame is that of `raise` and
its step that of an instruction that raises. -/
theorem haltStopsTheMachine : Obligations.HaltStopsTheMachine := by
  intro r u v s
  constructor
  · exact ⟨_, exec_halt r u v s, s.raise_onlyCpu .halted⟩
  · intro h
    exact h.stopsReporting_of_raise (by simp) (exec_halt r u v _)

/-- Settles O21: the body of OUT is `emit`, whose frame is that of one event. -/
theorem outReportsTheRegister : Obligations.OutReportsTheRegister := by
  intro r u v s
  exact ⟨_, exec_out r u v s, s.emit_onlyEvent (.output (s.reg r))⟩

end Sys2Proof.Machine
end

section
/-! PROOFS about ADD, SUB, MUL and DIV (42_arithmetic.md). Each of the four bodies writes one narrowed
exact result to its destination (R154), so the frame of a register write is said once; what is left is
the arithmetic of `tdiv`, the quotient rounded toward zero. -/

namespace Sys2Proof.Machine

/-! ### The register write -/

/-- A register write leaves the rest alone. -/
theorem State.setReg_onlyReg (s : State) (r : RegIdx) (v : Word) : OnlyReg r s (s.setReg r v) where
  regs k hk := s.reg_setReg_of_ne r k v hk
  rest := ⟨s.setReg_cfg r v, s.setReg_readData r v, s.setReg_readSlot r v, s.setReg_cpuState r v,
    s.setReg_traceEnabled r v, ⟨s.setReg_inputs r v, s.setReg_inputCount r v, s.setReg_events r v⟩⟩

/-- A narrowed exact result is read back modulo `2^32` (42_arithmetic.md R154). -/
theorem State.u32_reg_setReg_w32 (s : State) (r : RegIdx) (n : Int) :
    (u32 ((s.setReg r (w32 n)).reg r) : Int) = n % 4294967296 := by
  rw [State.reg_setReg_self, u32_w32]

/-! ### DIV: the quotient and the remainder -/

/-- `tdiv` is the division of 42_arithmetic.md R155: the quotient of the magnitudes with the sign of the
product. -/
theorem tdiv_eq_sign_mul_natAbs_div (n d : Int) :
    n.tdiv d = n.sign * d.sign * ((n.natAbs / d.natAbs : Nat) : Int) := by
  have habs : (n.tdiv d).natAbs = n.natAbs / d.natAbs := Int.natAbs_tdiv n d
  rw [← Int.sign_mul_natAbs (n.tdiv d), habs, Int.sign_tdiv]
  split
  · next hlt => simp [Nat.div_eq_of_lt hlt]
  · rfl

/-- The remainder that DIV implies is `tmod`. -/
theorem sub_tdiv_mul_eq_tmod (n d : Int) : n - n.tdiv d * d = n.tmod d := by
  rw [Int.tmod_def, Int.mul_comm]

theorem tmod_eq_zero_or_sign_eq (n d : Int) : n.tmod d = 0 ∨ (n.tmod d).sign = n.sign := by
  by_cases hd : d ∣ n
  · exact .inl (Int.tmod_eq_zero_of_dvd hd)
  · exact .inr (by rw [Int.sign_tmod, if_neg hd])

theorem natAbs_tmod_lt {d : Int} (n : Int) (hd : d ≠ 0) : (n.tmod d).natAbs < d.natAbs := by
  rw [Int.natAbs_tmod]
  exact Nat.mod_lt _ (Int.natAbs_pos.mpr hd)

/-- The quotient is the signed division of words. -/
theorem quotient_eq_sdiv (n d : Word) : quotient n d = n.sdiv d := by
  apply BitVec.eq_of_toInt_eq
  rw [quotient, BitVec.toInt_ofInt, BitVec.toInt_sdiv]

/-- Narrowing loses nothing of the quotient but for `INT32_MIN / -1` (42_arithmetic.md R155, R156). -/
theorem s32_quotient {n d : Word} (h : ¬ (s32 n = -2147483648 ∧ s32 d = -1)) :
    s32 (quotient n d) = (s32 n).tdiv (s32 d) := by
  have hne : n ≠ BitVec.intMin 32 ∨ d ≠ -1#32 := by
    rw [← not_and_or]
    rintro ⟨rfl, rfl⟩
    exact h (by decide)
  rw [quotient_eq_sdiv]
  exact BitVec.toInt_sdiv_of_ne_or_ne n d hne

/-- Settles O25: for a zero divisor the body of DIV is a raise, before and in a step; otherwise it
writes the narrowed quotient. -/
theorem divQuotientOrFault : Obligations.DivQuotientOrFault := by
  intro r u v s
  refine ⟨fun hz => ?_, fun hnz => ?_, fun hf hz => ?_⟩
  · exact ⟨_, exec_div_of_zero r u v s hz, s.raise_onlyCpu .divideByZero⟩
  · refine ⟨_, exec_div_of_ne_zero r u v s hnz, s.setReg_onlyReg r _, ?_⟩
    rw [← tdiv_eq_sign_mul_natAbs_div]
    exact s.u32_reg_setReg_w32 r _
  · exact hf.stopsReporting_of_raise (by simp) (exec_div_of_zero r u v _ hz)

/-- Settles O26: but for the overflow the word written reads as `tdiv`, whose remainder is `tmod`. -/
theorem divRoundsTowardZero : Obligations.DivRoundsTowardZero := by
  intro r u v s hnz hfits
  refine ⟨_, exec_div_of_ne_zero r u v s hnz, ?_⟩
  rw [State.reg_setReg_self, s32_quotient hfits, sub_tdiv_mul_eq_tmod]
  exact ⟨tdiv_eq_sign_mul_natAbs_div _ _, tmod_eq_zero_or_sign_eq _ _, natAbs_tmod_lt _ hnz⟩

/-! ### ADD, SUB and MUL -/

theorem exec_add (r u v : RegIdx) (s : State) :
    exec (.add r u v) s = .next (s.setReg r (w32 (s32 (s.reg u) + s32 (s.reg v)))) := rfl

theorem exec_sub (r u v : RegIdx) (s : State) :
    exec (.sub r u v) s = .next (s.setReg r (w32 (s32 (s.reg u) - s32 (s.reg v)))) := rfl

theorem exec_mul (r u v : RegIdx) (s : State) :
    exec (.mul r u v) s = .next (s.setReg r (w32 (s32 (s.reg u) * s32 (s.reg v)))) := rfl

/-- The low half of a product does not depend on the reading of the factors (42_arithmetic.md R152). -/
theorem w32_s32_mul_s32 (a b : Word) : w32 (s32 a * s32 b) = a * b := by
  rw [w32, BitVec.ofInt_mul, BitVec.ofInt_toInt, BitVec.ofInt_toInt]

/-- Settles O22: ADD writes the narrowed exact sum. -/
theorem addWrapsTheExactSum : Obligations.AddWrapsTheExactSum := by
  intro r u v s
  exact ⟨_, exec_add r u v s, s.u32_reg_setReg_w32 r _, s.setReg_onlyReg r _⟩

/-- Settles O23: SUB writes the narrowed exact difference, first source minus second. -/
theorem subWrapsTheExactDifference : Obligations.SubWrapsTheExactDifference := by
  intro r u v s
  exact ⟨_, exec_sub r u v s, s.u32_reg_setReg_w32 r _, s.setReg_onlyReg r _⟩

/-- Settles O24: MUL writes the narrowed signed product, which is the product of the words. -/
theorem mulKeepsTheLowHalf : Obligations.MulKeepsTheLowHalf := by
  intro r u v s
  refine ⟨_, exec_mul r u v s, s.u32_reg_setReg_w32 r _, ?_, s.setReg_onlyReg r _⟩
  rw [State.reg_setReg_self, w32_s32_mul_s32]
  exact BitVec.toNat_mul _ _

end Sys2Proof.Machine
end

section
/-! PROOFS about LD and ST (43_load_store.md R160, R161). The bounds check decides between one access and
a raise (R163); the frame of a cell write is said here, those of a register write and of `raise` stand
above. -/

namespace Sys2Proof.Machine

/-- The bounds check fails below 0 and at `CAP` and above (20_memory.md R55). -/
theorem inRange_eq_false_iff (c : Config) (v : Word) :
    inRange c v = false ↔ s32 v < 0 ∨ (c.cap : Int) ≤ s32 v := by
  rw [← Bool.not_eq_true, inRange_iff]
  omega

/-- A cell write leaves the rest alone. -/
theorem State.writeData_onlyCell (s : State) (a : Nat) (v : Word) : OnlyCell a s (s.writeData a v) where
  cfg := s.writeData_cfg a v
  regs := s.writeData_reg a v
  data b hb := by rw [State.readData_writeData, if_neg hb]
  slots := s.writeData_readSlot a v
  cpu := s.writeData_cpuState a v
  trace := s.writeData_traceEnabled a v
  host := ⟨s.writeData_inputs a v, s.writeData_inputCount a v, s.writeData_events a v⟩

theorem State.readData_writeData_self (s : State) (a : Nat) (v : Word) :
    (s.writeData a v).readData a = v := by
  rw [State.readData_writeData, if_pos rfl]

/-- The advance and the trace leave the capacity alone, so the body checks its address against that of
the machine before the step. -/
theorem State.bodyStart_inRange_eq_false (s : State) (i : Instr) {a : Word}
    (h : s32 a < 0 ∨ (s.cfg.cap : Int) ≤ s32 a) : inRange (s.bodyStart i).cfg a = false := by
  rw [s.bodyStart_cfg i]
  exact (inRange_eq_false_iff s.cfg a).mpr h

/-- Settles O29: in range the body of LD writes the cell to `x[r]`; out of range it is a raise, before
and in a step. -/
theorem loadReadsTheCellOrFaults : Obligations.LoadReadsTheCellOrFaults := by
  intro r b d s
  refine ⟨fun hlow hhigh => ?_, fun hout => ?_, fun hf hout => ?_⟩
  · have hin : inRange s.cfg (s.effAddr d b) = true := (inRange_iff _ _).mpr ⟨hlow, hhigh⟩
    exact ⟨_, exec_ld_of_inRange r b d s hin, s.reg_setReg_self r _, s.setReg_onlyReg r _⟩
  · have hnot : inRange s.cfg (s.effAddr d b) = false := (inRange_eq_false_iff _ _).mpr hout
    exact ⟨_, exec_ld_of_not_inRange r b d s hnot, s.raise_onlyCpu .dataFault⟩
  · have hnot := s.bodyStart_inRange_eq_false (.ld r d b) hout
    exact hf.stopsReporting_of_raise (by simp) (exec_ld_of_not_inRange r b d _ hnot)

/-- Settles O30: in range the body of ST writes `x[r]` to the cell; out of range it is a raise, before
and in a step. -/
theorem storeWritesTheCellOrFaults : Obligations.StoreWritesTheCellOrFaults := by
  intro r b d s
  refine ⟨fun hlow hhigh => ?_, fun hout => ?_, fun hf hout => ?_⟩
  · have hin : inRange s.cfg (s.effAddr d b) = true := (inRange_iff _ _).mpr ⟨hlow, hhigh⟩
    exact ⟨_, exec_st_of_inRange r b d s hin, s.readData_writeData_self _ _, s.writeData_onlyCell _ _⟩
  · have hnot : inRange s.cfg (s.effAddr d b) = false := (inRange_eq_false_iff _ _).mpr hout
    exact ⟨_, exec_st_of_not_inRange r b d s hnot, s.raise_onlyCpu .dataFault⟩
  · have hnot := s.bodyStart_inRange_eq_false (.st r d b) hout
    exact hf.stopsReporting_of_raise (by simp) (exec_st_of_not_inRange r b d _ hnot)

end Sys2Proof.Machine
end

section
/-! PROOFS about LDA and LDC (44_load_address_constant.md R170, R171). Both bodies are one register write,
whose frame is said above; the address that LDA writes is a narrowed sum, and LDC reads no third operand. -/

namespace Sys2Proof.Machine

theorem exec_lda (r b : RegIdx) (d : Word) (s : State) :
    exec (.lda r d b) s = .next (s.setReg r (s.effAddr d b)) := rfl

theorem exec_ldc (r b : RegIdx) (d : Word) (s : State) :
    exec (.ldc r d b) s = .next (s.setReg r d) := rfl

/-- Settles O31: LDA writes the effective address, which is the narrowed exact sum. -/
theorem ldaWritesTheAddress : Obligations.LdaWritesTheAddress := by
  intro r b d s
  exact ⟨_, exec_lda r b d s, s.u32_reg_setReg_w32 r (s32 d + s32 (s.reg b)), s.setReg_onlyReg r _⟩

/-- Settles O32: LDC writes the literal, and the state it answers does not name the third operand. -/
theorem ldcWritesTheLiteral : Obligations.LdcWritesTheLiteral := by
  intro r b d s
  exact ⟨_, exec_ldc r b d s, s.reg_setReg_self r d, s.setReg_onlyReg r d, fun b' => exec_ldc r b' d s⟩

end Sys2Proof.Machine
end

section
/-! PROOFS about the six conditional jumps (45_branches.md R180 to R186). The six bodies are one `jumpIf`
of six tests, so what a jump writes and leaves alone is said once, for any test. -/

namespace Sys2Proof.Machine

/-! ### The shared rule (R186) -/

theorem State.pc_jumpIf (s : State) (taken : Bool) (a : Word) :
    (s.jumpIf taken a).pc = if taken then a else s.pc := by
  cases taken
  · rfl
  · exact s.reg_setReg_self pcReg a

theorem OnlyReg.refl (r : RegIdx) (s : State) : OnlyReg r s s where
  regs _ _ := rfl
  rest := ⟨rfl, fun _ => rfl, fun _ => rfl, rfl, rfl, ⟨rfl, rfl, rfl⟩⟩

/-- A jump, taken or not, leaves everything but `x[7]` alone. -/
theorem State.jumpIf_onlyReg (s : State) (taken : Bool) (a : Word) :
    OnlyReg pcReg s (s.jumpIf taken a) := by
  cases taken
  · exact OnlyReg.refl pcReg s
  · exact s.setReg_onlyReg pcReg a

/-- A body that is `jumpIf` of a test of `x[r]` is a conditional jump on what the test decides. -/
theorem jumpsWhen_of_exec_eq_jumpIf {mk : RegIdx → Word → RegIdx → Instr} {cond : Int → Prop}
    {test : Word → Bool}
    (hexec : ∀ r d b s, exec (mk r d b) s = .next (s.jumpIf (test (s.reg r)) (s.effAddr d b)))
    (htest : ∀ v, test v = true ↔ cond (s32 v)) : JumpsWhen mk cond := by
  intro r d b s
  refine ⟨_, hexec r d b s, fun hc => ?_, fun hc => ?_, s.jumpIf_onlyReg _ _⟩
  · rw [s.pc_jumpIf, if_pos ((htest _).mpr hc)]
  · rw [s.pc_jumpIf, if_neg (mt (htest _).mp hc)]

/-! ### The six tests -/

theorem isNegative_iff (v : Word) : isNegative v = true ↔ s32 v < 0 := decide_eq_true_iff

theorem isNonPositive_iff (v : Word) : isNonPositive v = true ↔ s32 v ≤ 0 := decide_eq_true_iff

theorem isPositive_iff (v : Word) : isPositive v = true ↔ s32 v > 0 := decide_eq_true_iff

theorem isNonNegative_iff (v : Word) : isNonNegative v = true ↔ s32 v ≥ 0 := decide_eq_true_iff

theorem isZero_iff (v : Word) : isZero v = true ↔ s32 v = 0 := decide_eq_true_iff

theorem isNonZero_iff (v : Word) : isNonZero v = true ↔ s32 v ≠ 0 := decide_eq_true_iff

/-! ### The six bodies -/

theorem exec_jlt (r : RegIdx) (d : Word) (b : RegIdx) (s : State) :
    exec (.jlt r d b) s = .next (s.jumpIf (isNegative (s.reg r)) (s.effAddr d b)) := rfl

theorem exec_jle (r : RegIdx) (d : Word) (b : RegIdx) (s : State) :
    exec (.jle r d b) s = .next (s.jumpIf (isNonPositive (s.reg r)) (s.effAddr d b)) := rfl

theorem exec_jgt (r : RegIdx) (d : Word) (b : RegIdx) (s : State) :
    exec (.jgt r d b) s = .next (s.jumpIf (isPositive (s.reg r)) (s.effAddr d b)) := rfl

theorem exec_jge (r : RegIdx) (d : Word) (b : RegIdx) (s : State) :
    exec (.jge r d b) s = .next (s.jumpIf (isNonNegative (s.reg r)) (s.effAddr d b)) := rfl

theorem exec_jeq (r : RegIdx) (d : Word) (b : RegIdx) (s : State) :
    exec (.jeq r d b) s = .next (s.jumpIf (isZero (s.reg r)) (s.effAddr d b)) := rfl

theorem exec_jne (r : RegIdx) (d : Word) (b : RegIdx) (s : State) :
    exec (.jne r d b) s = .next (s.jumpIf (isNonZero (s.reg r)) (s.effAddr d b)) := rfl

/-- Settles O33: the body of JLT is the shared jump on the test for a negative word. -/
theorem jltJumpsWhenNegative : Obligations.JltJumpsWhenNegative :=
  jumpsWhen_of_exec_eq_jumpIf exec_jlt isNegative_iff

/-- Settles O34: the body of JLE is the shared jump on the test for zero or a negative word. -/
theorem jleJumpsWhenNotPositive : Obligations.JleJumpsWhenNotPositive :=
  jumpsWhen_of_exec_eq_jumpIf exec_jle isNonPositive_iff

/-- Settles O35: the body of JGT is the shared jump on the test for a positive word. -/
theorem jgtJumpsWhenPositive : Obligations.JgtJumpsWhenPositive :=
  jumpsWhen_of_exec_eq_jumpIf exec_jgt isPositive_iff

/-- Settles O36: the body of JGE is the shared jump on the test for zero or a positive word. -/
theorem jgeJumpsWhenNotNegative : Obligations.JgeJumpsWhenNotNegative :=
  jumpsWhen_of_exec_eq_jumpIf exec_jge isNonNegative_iff

/-- Settles O37: the body of JEQ is the shared jump on the test for zero. -/
theorem jeqJumpsWhenZero : Obligations.JeqJumpsWhenZero :=
  jumpsWhen_of_exec_eq_jumpIf exec_jeq isZero_iff

/-- Settles O38: the body of JNE is the shared jump on the test for a word other than zero. -/
theorem jneJumpsWhenNotZero : Obligations.JneJumpsWhenNotZero :=
  jumpsWhen_of_exec_eq_jumpIf exec_jne isNonZero_iff

end Sys2Proof.Machine
end

section
/-! PROOFS about faults and the transitions of `cpu_state` (60_exceptions.md R231, R233). In a running
machine a body sets `cpu_state` in three ways only; that is said once, and both statements rest on it or
on the `raise` behind it. -/

namespace Sys2Proof.Machine

/-! ### `raise F` (R233) -/

/-- If the step that fetches `i` leaves the machine stopped, the body of `i` is a raise. -/
theorem Fetches.exec_of_step_stops {s t : State} {i : Instr} (h : Fetches s i) (ht : step s = .next t)
    (hk : t.cpuState ≠ .ok) : exec i (s.bodyStart i) = .next ((s.bodyStart i).raise t.cpuState) := by
  obtain ⟨q, hq⟩ := exec_answers i (s.bodyStart i)
  obtain rfl : q.reported = t := by simpa [h.step_next hq] using ht
  rw [State.reported_cpuState] at hk ⊢
  rw [← exec_stops i _ q hq (by simpa using h.running) hk, hq]

/-- Settles O14: the body of a step that stops is a raise, and the step of an instruction that raises
only advances and reports. -/
theorem stoppingStepOnlyAdvances : Obligations.StoppingStepOnlyAdvances := by
  intro s t i hf ht hk
  exact hf.stopsReporting_of_raise hk (hf.exec_of_step_stops ht hk)

/-! ### The causes of a stop (R232) -/

section
variable {i : Instr} {s t : State} (hx : exec i s = .next t) (hs : s.cpuState = .ok)
include hx hs

/-- The `cpu_state` a body leaves in a running machine, each value with its cause. -/
theorem exec_cpuState_cases :
    t.cpuState = .ok ∨
    (t.cpuState = .halted ∧ ∃ r u v, i = .halt r u v) ∨
    (t.cpuState = .divideByZero ∧ ∃ r u v, i = .div r u v ∧ s32 (s.reg v) = 0) ∨
    (t.cpuState = .dataFault ∧ ∃ r d b, (i = .ld r d b ∨ i = .st r d b) ∧
      inRange s.cfg (s.effAddr d b) = false) := by
  cases exec_cases i s t hx with
  | halts h => exact .inr (.inl ⟨rfl, h⟩)
  | dividesByZero h => exact .inr (.inr (.inl ⟨rfl, h⟩))
  | dataFault h => exact .inr (.inr (.inr ⟨rfl, h⟩))
  | _ => exact .inl hs

theorem exec_cpuState_ne_instructionFault : t.cpuState ≠ .instructionFault := by
  obtain h | ⟨h, -⟩ | ⟨h, -⟩ | ⟨h, -⟩ := exec_cpuState_cases hx hs <;> simp [h]

theorem exec_halted_iff : t.cpuState = .halted ↔ ∃ r u v, i = .halt r u v := by
  constructor
  · intro hk
    simpa [hk] using exec_cpuState_cases hx hs
  · rintro ⟨r, u, v, rfl⟩
    cases hx
    rfl

theorem exec_divideByZero_iff :
    t.cpuState = .divideByZero ↔ ∃ r u v, i = .div r u v ∧ s32 (s.reg v) = 0 := by
  constructor
  · intro hk
    simpa [hk] using exec_cpuState_cases hx hs
  · rintro ⟨r, u, v, rfl, hz⟩
    cases (exec_div_of_zero r u v s hz).symm.trans hx
    rfl

theorem exec_dataFault_iff :
    t.cpuState = .dataFault ↔ ∃ r d b, (i = .ld r d b ∨ i = .st r d b) ∧
      inRange s.cfg (s.effAddr d b) = false := by
  constructor
  · intro hk
    simpa [hk] using exec_cpuState_cases hx hs
  · rintro ⟨r, d, b, rfl | rfl, ha⟩
    · cases (exec_ld_of_not_inRange r b d s ha).symm.trans hx
      rfl
    · cases (exec_st_of_not_inRange r b d s ha).symm.trans hx
      rfl

end

/-! ### Loading (30_encoding.md R93, R95) -/

@[simp] theorem State.placeFrom_cpuState (s : State) (p : Nat) (is : List Instr) :
    (s.placeFrom p is).cpuState = s.cpuState := by
  rw [State.placeFrom_eq]

/-- The three answers of a load; both that leave a machine leave one that was initialised. -/
theorem State.loadProgram_cases (s : State) (src : List Char) :
    (∃ is, s.loadProgram src = .loaded ((s.initialise true).placeFrom 0 is)) ∨
    (∃ e, s.loadProgram src = .failed e (s.initialise true)) ∨
    s.loadProgram src = .refused .sourceNotAscii := by
  unfold State.loadProgram
  split
  · split
    · next is _ => exact .inl ⟨is, rfl⟩
    · next e _ => exact .inr (.inl ⟨e, rfl⟩)
  · exact .inr (.inr rfl)

/-! ### The table (R231) -/

/-- Settles O47: a stopped machine's step is the report, a failed fetch check raises, and a fetched
instruction stops the machine for the causes of its body; every restart begins with `initialise`. -/
theorem cpuStateFollowsTheTable : Obligations.CpuStateFollowsTheTable := by
  constructor
  · intro s t ht
    obtain ⟨hc, -⟩ := step_cases s t ht
    refine ⟨fun hk => ?_, fun hk hout => ?_, fun i hf => ?_⟩
    · cases (step_of_stopped s hc hk).symm.trans ht
      exact s.reported_cpuState
    · have hp : s.pcInRange = false := s.pcInRange_eq_false_iff.mpr hout
      cases (step_of_pc_out_of_range s hc hk hp).symm.trans ht
      simp
    · obtain ⟨q, hq⟩ := exec_answers i (s.bodyStart i)
      cases (hf.step_next hq).symm.trans ht
      have hs : (s.bodyStart i).cpuState = .ok := (s.bodyStart_cpuState i).trans hf.running
      rw [q.reported_cpuState]
      refine ⟨exec_cpuState_ne_instructionFault hq hs, exec_halted_iff hq hs,
        exec_divideByZero_iff hq hs, ?_⟩
      simp only [exec_dataFault_iff hq hs, inRange_eq_false_iff, s.bodyStart_cfg i]
  · intro s
    refine ⟨s.initialise_cpuState true, s.initialise_cpuState false, fun src t h => ?_,
      fun src e t h => ?_⟩
    · obtain ⟨is, hl⟩ | ⟨e, hl⟩ | hl := s.loadProgram_cases src <;> cases hl.symm.trans h
      simp
    · obtain ⟨is, hl⟩ | ⟨e, hl⟩ | hl := s.loadProgram_cases src <;> cases hl.symm.trans h
      simp

end Sys2Proof.Machine
end

section
/-! PROOFS about `initialize` and `reset` (70_reset_and_hazards.md R260, R261). What the registers and the
slots read as is said above; here are the reset contents of data memory and the filler word. `reset()` is
`initialize(false)`, so its statement is read off that of `initialize`. -/

namespace Sys2Proof.Machine

/-- Cell 0 of a legal capacity reads as `CAP - 1` in the signed reading too (10_state.md R38). -/
theorem s32_dataReset_zero {c : Config} (hc : c.wf) : s32 (dataReset c 0) = (c.cap : Int) - 1 := by
  obtain ⟨hlow, hhigh⟩ := hc
  exact s32_w32 _ (by omega)

theorem dataReset_of_ne_zero (c : Config) {a : Nat} (ha : a ≠ 0) : dataReset c a = 0 := if_neg ha

/-- The filler word is HALT 0,0,0 (10_state.md R39). -/
theorem decode_zero : decode 0 = .instr (.halt 0 0 0) := by decide

/-- Settles O2: every cell reads as its reset value, and every slot as the filler word or as before. -/
theorem initialiseGivesResetValues : Obligations.InitialiseGivesResetValues := by
  intro s clear hc
  refine ⟨s.reg_initialise clear, ?_, fun a ha => ?_, s.initialise_cpuState clear, ?_, ?_,
    s.initialise_traceEnabled clear, s.initialise_cfg clear⟩
  · rw [s.readData_initialise clear 0, s32_dataReset_zero hc]
  · rw [s.readData_initialise clear a, dataReset_of_ne_zero s.cfg ha]
  · rintro rfl p
    rw [s.readSlot_initialise_true p, decode_zero]
  · rintro rfl p
    exact s.readSlot_initialise_false p

/-- Settles O3: `reset()` is `initialize(false)`. -/
theorem resetKeepsTheProgram : Obligations.ResetKeepsTheProgram := by
  intro s hc
  obtain ⟨hreg, hcell0, hcells, hcpu, -, hslots, -, -⟩ := initialiseGivesResetValues s false hc
  exact ⟨hslots rfl, hreg, hcell0, hcells, hcpu⟩

end Sys2Proof.Machine
end

section
/-! PROOFS about the instruction word (30_encoding.md Part B). A word decodes to `i` exactly if its fields
are those of the record of `i`; packing and unpacking are inverse, so both round trips are this fact. -/

namespace Sys2Proof.Machine

/-- The five bits of the opcode field hold the opcode's number (30_encoding.md R74). -/
theorem toNat_fields_op (c : Record) : c.fields.op.toNat = c.op.number := by
  have := number_le c.op
  simp only [Record.fields, BitVec.toNat_ofNat]
  omega

/-- The decoder reads `i` exactly from the words whose fields are those of `i`. -/
theorem decode_eq_instr_iff (w : InstrWord) (i : Instr) :
    decode w = .instr i ↔ fieldsOf w = i.record.fields := by
  constructor
  · intro h
    unfold decode at h
    split at h
    · cases h
    · next op hop =>
      have hnum : (fieldsOf w).op.toNat = op.number := ofNumber_eq_some _ _ hop
      rw [(build_eq_instr _ _ _ _ _).mp h, Record.fields, ← hnum, BitVec.ofNat_toNat,
        BitVec.setWidth_eq]
  · intro h
    unfold decode
    rw [h, toNat_fields_op, ofNumber_number]
    exact build_record i

/-- Settles O51: the encoder packs the fields of the instruction's record. -/
theorem decodeReadsBackEncode : Obligations.DecodeReadsBackEncode := by
  intro i
  exact (decode_eq_instr_iff _ i).mpr (fieldsOf_packFields _)

/-- Settles O52: packing the fields of a word gives the word back. -/
theorem encodeReadsBackDecode : Obligations.EncodeReadsBackDecode := by
  intro w i h
  rw [encode, ← (decode_eq_instr_iff w i).mp h, packFields_fieldsOf]

/-! ### Well-formed words (30_encoding.md R77) -/

/-- Fields whose opcode number names `op` are well-formed exactly if the record of `op` is. -/
theorem fields_wellFormed_eq_record_wellFormed (f : Fields) (op : Opcode)
    (hop : f.op.toNat = op.number) : f.wellFormed = Record.wellFormed ⟨op, f.r, f.s, f.t⟩ := by
  have hfmt : 6 < op.number ↔ op.format ≠ .registerOnly := by
    rw [ne_eq, number_registerOnly, not_le]
  cases hf : op.format <;> simp [Fields.wellFormed, Record.wellFormed, hop, number_le, hfmt, hf]

/-- The decoder accepts exactly the well-formed words. -/
theorem decode_answers_iff (w : InstrWord) :
    (∃ i, decode w = .instr i) ↔ wordWellFormed w = true := by
  constructor
  · rintro ⟨i, h⟩
    obtain ⟨-, -, -, -, hwf⟩ := Laws.EncodeLayout.of_record i
    rwa [encodeReadsBackDecode w i h] at hwf
  · intro h
    obtain ⟨hnum, -⟩ := (Fields.wellFormed_iff _).mp h
    obtain ⟨op, hop⟩ := (ofNumber_isSome _).mpr hnum
    have hrec : Record.wellFormed ⟨op, (fieldsOf w).r, (fieldsOf w).s, (fieldsOf w).t⟩ = true := by
      rw [← fields_wellFormed_eq_record_wellFormed _ op (ofNumber_eq_some _ _ hop)]
      exact h
    obtain ⟨i, hi⟩ := (build_answers_iff _ _ _ _).mpr hrec
    refine ⟨i, ?_⟩
    rw [decode, hop]
    exact hi

/-- Settles O53: well-formedness of the word's fields is the four inequalities. -/
theorem decoderAcceptsExactlyWellFormed : Obligations.DecoderAcceptsExactlyWellFormed := by
  intro w
  exact (decode_answers_iff w).trans (Fields.wellFormed_iff (fieldsOf w))

/-- Settles O54, by computing the decoder on the six words. -/
theorem specWordsDecode : Obligations.SpecWordsDecode := by
  unfold Obligations.SpecWordsDecode
  decide

end Sys2Proof.Machine
end

section
/-! PROOFS about the invariant (10_state.md sections 3 and 4, 20_memory.md sections 1 and 3). The invariant
speaks of the configuration and the two memories alone. Steps keep the first and the third, and change
data memory only by a store in range, which is said once (`step_dmem_cases`); resets empty the
memories and the loader fills slots below the capacity with encoded instructions. -/

namespace Sys2Proof.Machine

/-! ### Stores (43_load_store.md R161) -/

/-- A body changes data memory only if it is an ST in range. -/
theorem exec_dmem_cases {i : Instr} {s t : State} (h : exec i s = .next t) :
    t.dmem = s.dmem ∨ ∃ r b d, i = .st r d b ∧ inRange s.cfg (s.effAddr d b) = true ∧
      t.dmem = (s.writeData (cellIndex (s.effAddr d b)) (s.reg r)).dmem := by
  cases exec_cases i s t h with
  | stores r b d hi ha => exact .inr ⟨r, b, d, hi, ha, rfl⟩
  | _ => exact .inl rfl

/-- A step changes data memory only if it fetches an ST in range. -/
theorem step_dmem_cases {s t : State} (h : step s = .next t) :
    t.dmem = s.dmem ∨ ∃ r b d, Fetches s (.st r d b) ∧
      inRange s.cfg ((s.bodyStart (.st r d b)).effAddr d b) = true ∧
      t.dmem = (s.writeData (cellIndex ((s.bodyStart (.st r d b)).effAddr d b))
        ((s.bodyStart (.st r d b)).reg r)).dmem := by
  obtain ⟨-, ⟨-, rfl⟩ | ⟨-, -, rfl⟩ | ⟨i, q, hf, hq, rfl⟩⟩ := step_cases s t h
  · exact .inl s.reported_dmem
  · exact .inl (State.reported_dmem _)
  · rw [State.reported_dmem]
    obtain hd | ⟨r, b, d, rfl, ha, hd⟩ := exec_dmem_cases hq
    · exact .inl (by rw [hd, State.bodyStart_dmem])
    · exact .inr ⟨r, b, d, hf, by simpa using ha, by simpa using hd⟩

/-! ### The invariant is about three fields -/

theorem State.Inv.of_fields_eq {s t : State} (h : s.Inv) (hcfg : t.cfg = s.cfg)
    (hd : t.dmem = s.dmem) (hi : t.imem = s.imem) : t.Inv where
  capacity := hcfg ▸ h.capacity
  dataForm := by rw [hcfg, hd]; exact h.dataForm
  dataBound := by rw [hcfg, hd]; exact h.dataBound
  slotForm := by rw [hi]; exact h.slotForm
  slotBound := by rw [hcfg, hi]; exact h.slotBound
  slots p := by simpa [State.readSlot, hi] using h.slots p

theorem State.Inv.writeData {s : State} (h : s.Inv) {a : Nat} (ha : a < s.cfg.cap) (v : Word) :
    (s.writeData a v).Inv where
  capacity := h.capacity
  dataForm := Memory.write_wf _ _ _ _ h.dataForm
  dataBound := Memory.write_within _ _ _ _ _ h.dataBound ha
  slotForm := h.slotForm
  slotBound := h.slotBound
  slots := h.slots

/-- Settles O42: a step leaves the fields the invariant is about alone, or stores below the capacity. -/
theorem stepKeepsTheInvariant : Obligations.StepKeepsTheInvariant := by
  intro s t h hst
  obtain ⟨hcfg, himem, -⟩ := step_keeps s t hst
  obtain hd | ⟨r, b, d, -, ha, hd⟩ := step_dmem_cases hst
  · exact h.of_fields_eq hcfg hd himem
  · exact (h.writeData (cellIndex_lt _ _ ha) _).of_fields_eq hcfg hd himem

/-! ### Restarts and loading -/

theorem wordWellFormed_zero : wordWellFormed 0 = true := by decide

theorem wordWellFormed_encode (i : Instr) : wordWellFormed (encode i) = true :=
  (decode_answers_iff _).mp ⟨i, decodeReadsBackEncode i⟩

/-- A cleared machine of legal capacity meets the invariant. -/
theorem State.inv_initialise_true (s : State) (hc : s.cfg.wf) : (s.initialise true).Inv where
  capacity := hc
  dataForm := ⟨.nil, by simp⟩
  dataBound := by simp
  slotForm := ⟨.nil, by simp⟩
  slotBound := by simp
  slots p := by rw [s.readSlot_initialise_true p, wordWellFormed_zero]

theorem State.Inv.initialise_false {s : State} (h : s.Inv) : (s.initialise false).Inv where
  capacity := h.capacity
  dataForm := ⟨.nil, by simp⟩
  dataBound := by simp
  slotForm := h.slotForm
  slotBound := h.slotBound
  slots := h.slots

@[simp] theorem State.placeFrom_cfg (s : State) (p : Nat) (is : List Instr) :
    (s.placeFrom p is).cfg = s.cfg := by rw [State.placeFrom_eq]

@[simp] theorem State.placeFrom_dmem (s : State) (p : Nat) (is : List Instr) :
    (s.placeFrom p is).dmem = s.dmem := by rw [State.placeFrom_eq]

/-- Placing a program that fits keeps the invariant. -/
theorem State.Inv.placeFrom {s : State} (h : s.Inv) (is : List Instr) (hlen : is.length ≤ s.cfg.cap) :
    (s.placeFrom 0 is).Inv where
  capacity := by simpa using h.capacity
  dataForm := by simpa using h.dataForm
  dataBound := by simpa using h.dataBound
  slotForm := s.placeFrom_wf 0 is h.slotForm
  slotBound := by
    rw [s.placeFrom_cfg]
    exact s.placeFrom_within 0 _ is h.slotBound (by omega)
  slots p := by
    rw [s.readSlot_placeFrom]
    split
    · exact wordWellFormed_encode _
    · exact h.slots p

/-- What a load that succeeds, or fails, has found, and the machine it leaves
(30_encoding.md R93 to R96). -/
theorem State.loadProgram_eq_loaded {s t : State} {src : List Char}
    (h : s.loadProgram src = .loaded t) :
    ∃ is, decodeLines 1 s.cfg.cap (sourceLines src) = .ok is ∧
      t = (s.initialise true).placeFrom 0 is := by
  unfold State.loadProgram at h
  split at h
  · split at h
    · next is hdec => cases h; exact ⟨is, hdec, rfl⟩
    · cases h
  · cases h

theorem State.loadProgram_eq_failed {s t : State} {src : List Char} {e : LoadError}
    (h : s.loadProgram src = .failed e t) :
    decodeLines 1 s.cfg.cap (sourceLines src) = .bad e ∧ t = s.initialise true := by
  unfold State.loadProgram at h
  split at h
  · split at h
    · cases h
    · next hdec => cases h; exact ⟨hdec, rfl⟩
  · cases h

/-- The machine a load leaves is a cleared one, perhaps with a program that fits in its slots. -/
theorem command_load_cases {s t : State} {src : List Char}
    (h : command (.load src) s = .next t) :
    t = s.initialise true ∨
      ∃ is : List Instr, is.length ≤ s.cfg.cap ∧ t = (s.initialise true).placeFrom 0 is := by
  cases hl : s.loadProgram src with
  | loaded q =>
    obtain ⟨is, hdec, rfl⟩ := State.loadProgram_eq_loaded hl
    simp only [command, hl, LoadOutcome.toOutcome, Host.Outcome.next.injEq] at h
    exact .inr ⟨is, decodeLines_length _ _ _ _ hdec, h.symm⟩
  | failed e q =>
    obtain ⟨-, rfl⟩ := State.loadProgram_eq_failed hl
    simp only [command, hl, LoadOutcome.toOutcome, Host.Outcome.next.injEq] at h
    exact .inl h.symm
  | refused r => simp [command, hl, LoadOutcome.toOutcome] at h

/-! ### Runs -/

/-- What every step keeps, a run keeps. -/
theorem run_keeps {P : State → Prop} (hstep : ∀ s t, P s → step s = .next t → P t) {fuel : Nat}
    {s t : State} (hs : P s) (h : (run fuel s).toOutcome = .next t) : P t := by
  have hloop : ∀ fuel s, P s → (runLoop fuel s).toOutcome = .next t → P t := by
    intro fuel
    induction fuel with
    | zero =>
      intro s hs h
      unfold runLoop at h
      split at h <;> (cases h; exact hs)
    | succ fuel ih =>
      intro s hs h
      unfold runLoop at h
      split at h
      · split at h
        · next q hq => exact ih q (hstep s q hs hq) h
        · next f _ => exact nomatch f
        · cases h
      · cases h; exact hs
  unfold run at h
  split at h
  · exact hloop fuel s hs h
  · split at h
    · next q hq => cases h; exact hstep s _ hs hq
    · next f _ => exact nomatch f
    · cases h

/-- Settles O44: restarts empty the data memory and keep or empty the slots, a load places a program
that fits, runs are steps, and the trace flag and the inputs are no part of the invariant. -/
theorem everyCommandKeepsTheInvariant : Obligations.EveryCommandKeepsTheInvariant := by
  intro c s t h hc
  cases c with
  | initClear => cases hc; exact s.inv_initialise_true h.capacity
  | initKeep => cases hc; exact h.initialise_false
  | powerOn => cases hc; exact (s.inv_initialise_true h.capacity).of_fields_eq rfl rfl rfl
  | step => exact stepKeepsTheInvariant s t h hc
  | run fuel => exact run_keeps stepKeepsTheInvariant h hc
  | load src =>
    have hinit := s.inv_initialise_true h.capacity
    obtain rfl | ⟨is, hlen, rfl⟩ := command_load_cases hc
    · exact hinit
    · exact hinit.placeFrom is hlen
  | setTrace on => cases hc; exact h.of_fields_eq rfl rfl rfl
  | supplyInput v => cases hc; exact h.of_fields_eq rfl rfl rfl

/-- Settles O41: the machine after reset is a cleared machine of legal capacity. -/
theorem resetMeetsTheInvariant : Obligations.ResetMeetsTheInvariant :=
  State.reset.inv_initialise_true (by decide)

/-! ### Progress -/

/-- A running machine of legal capacity whose program counter is in range and whose fetched word is
well-formed fetches an instruction. -/
theorem State.Inv.fetches {s : State} (h : s.Inv) (hk : s.cpuState = .ok)
    (hp : s.pcInRange = true) : ∃ i, Fetches s i := by
  obtain ⟨i, hi⟩ := (decode_answers_iff _).mpr (h.slots (s32 s.pc).toNat)
  obtain ⟨hlow, hhigh⟩ := s.pcInRange_iff.mp hp
  exact ⟨i, h.capacity, hk, hlow, hhigh, hi⟩

/-- Settles O43: the machine is stopped, fails the fetch check or fetches an instruction, and each of
these steps answers. -/
theorem invariantMachineAlwaysSteps : Obligations.InvariantMachineAlwaysSteps := by
  intro s h
  by_cases hk : s.cpuState = .ok
  · cases hp : s.pcInRange with
    | false => exact ⟨_, step_of_pc_out_of_range s h.capacity hk hp⟩
    | true =>
      obtain ⟨i, hf⟩ := h.fetches hk hp
      obtain ⟨q, hq⟩ := exec_answers i (s.bodyStart i)
      exact ⟨_, hf.step_next hq⟩
  · exact ⟨_, step_of_stopped s h.capacity hk⟩

end Sys2Proof.Machine
end

section
/-! PROOFS about operand strings and lines (30_encoding.md Part C). The three grammars are said by what
the text decoder accepts; the canonical text of an instruction is a line of the accepted shape. -/

namespace Sys2Proof.Machine

/-! ### Separators -/

/-- A separator of the operand grammars does not stand in an integer literal. -/
theorem IsIntLiteral.not_mem {cs : List Char} {n : Int} (h : IsIntLiteral cs n) {x : Char}
    (hx : isIntChar x = false) : x ∉ cs :=
  not_mem_of_isIntChar hx (parseInt?_chars cs n ((parseInt?_eq_some cs n).mpr h))

theorem IsIntLiteral.ne_of_mem {cs : List Char} {n : Int} (h : IsIntLiteral cs n) {x : Char}
    (hx : isIntChar x = false) : ∀ c ∈ cs, (c == x) = false := by
  intro c hc
  rw [beq_eq_false_iff_ne]
  rintro rfl
  exact h.not_mem hx hc

/-! ### The grammar `r,s,t` (R83) -/

/-- The three fields of an operand string are the pieces that its commas cut. -/
theorem splitOn_comma_eq_triple {cs a b c : List Char}
    (h : splitOn (· == ',') cs = [a, b, c]) : cs = a ++ [','] ++ b ++ [','] ++ c := by
  rw [← intercalate_splitOn ',' cs, h]
  simp [List.intercalate]

theorem splitOn_comma_triple {a b c : List Char} {x y z : Int} (ha : IsIntLiteral a x)
    (hb : IsIntLiteral b y) (hc : IsIntLiteral c z) :
    splitOn (· == ',') (a ++ [','] ++ b ++ [','] ++ c) = [a, b, c] := by
  have hcomma : isIntChar ',' = false := by decide
  simp only [List.append_assoc, List.cons_append, List.nil_append]
  rw [splitOn_append _ _ _ _ (ha.ne_of_mem hcomma) rfl, splitOn_append _ _ _ _ (hb.ne_of_mem hcomma) rfl,
    splitOn_of_forall_not _ _ (hc.ne_of_mem hcomma)]

theorem decodeTriple_eq_instr_iff (op : Opcode) (cs : List Char) (i : Instr) :
    decodeTriple op cs = .instr i ↔
      ∃ (a b c : List Char) (x y z : Int), cs = a ++ [','] ++ b ++ [','] ++ c ∧
        IsIntLiteral a x ∧ IsIntLiteral b y ∧ IsIntLiteral c z ∧
        (0 ≤ x ∧ x < 8) ∧ (0 ≤ y ∧ y < 8) ∧ (0 ≤ z ∧ z < 8) ∧
        i.record = ⟨op, w32 x, w32 y, w32 z⟩ := by
  constructor
  · intro h
    unfold decodeTriple at h
    split at h
    · next a b c hcs =>
      simp only [assemble_eq_instr, parseRegister_eq_value, parseInt?_eq_some] at h
      obtain ⟨_, _, _, ⟨x, hx, hx8, rfl⟩, ⟨y, hy, hy8, rfl⟩, ⟨z, hz, hz8, rfl⟩, hi⟩ := h
      exact ⟨a, b, c, x, y, z, splitOn_comma_eq_triple hcs, hx, hy, hz, hx8, hy8, hz8, hi⟩
    · cases h
  · rintro ⟨a, b, c, x, y, z, rfl, ha, hb, hc, hx8, hy8, hz8, hi⟩
    unfold decodeTriple
    rw [splitOn_comma_triple ha hb hc]
    simp only [assemble_eq_instr, parseRegister_eq_value, parseInt?_eq_some]
    exact ⟨_, _, _, ⟨x, ha, hx8, rfl⟩, ⟨y, hb, hy8, rfl⟩, ⟨z, hc, hz8, rfl⟩, hi⟩

theorem decodeOperands_of_registerOnly {op : Opcode} (hop : op.format = .registerOnly)
    (cs : List Char) : decodeOperands op cs = decodeTriple op cs := by
  simp only [decodeOperands, hop]

/-- Settles O58: what the grammar `r,s,t` accepts, and that any other outcome is an error of this opcode. -/
theorem registerOnlyOperandGrammar : Obligations.RegisterOnlyOperandGrammar := by
  intro op cs hop
  refine ⟨fun i => ?_, decodeOperands_cases op cs⟩
  rw [decodeOperands_of_registerOnly hop]
  exact decodeTriple_eq_instr_iff op cs i

/-! ### The grammar `r,s(t)` (R84, R89) -/

theorem decodeBracketed_eq_instr_iff (op : Opcode) (cs : List Char) (i : Instr) :
    decodeBracketed op cs = .instr i ↔
      ∃ (a b c : List Char) (x y z : Int), cs = a ++ [','] ++ b ++ ['('] ++ c ++ [')'] ∧
        IsIntLiteral a x ∧ IsIntLiteral b y ∧ IsIntLiteral c z ∧
        (0 ≤ x ∧ x < 8) ∧ (0 ≤ z ∧ z < 8) ∧ i.record = ⟨op, w32 x, w32 y, w32 z⟩ := by
  constructor
  · intro h
    unfold decodeBracketed at h
    split at h
    · cases h
    · next a rest ha =>
      split at h
      · cases h
      · next b rest' hb =>
        split at h
        · next c hc =>
          simp only [assemble_eq_instr, parseRegister_eq_value, parseLiteral_eq_value,
            parseInt?_eq_some] at h
          obtain ⟨_, _, _, ⟨x, hx, hx8, rfl⟩, ⟨y, hy, rfl⟩, ⟨z, hz, hz8, rfl⟩, hi⟩ := h
          obtain ⟨rfl, -⟩ := cutAt_eq_some _ _ _ _ ha
          obtain ⟨rfl, -⟩ := cutAt_eq_some _ _ _ _ hb
          obtain ⟨rfl, -⟩ := cutAt_eq_some _ _ _ _ hc
          exact ⟨a, b, c, x, y, z, by simp, hx, hy, hz, hx8, hz8, hi⟩
        · cases h
  · rintro ⟨a, b, c, x, y, z, rfl, ha, hb, hc, hx8, hz8, hi⟩
    have hcomma := cutAt_append ',' a (b ++ '(' :: (c ++ [')'])) (ha.not_mem (by decide))
    have hopen := cutAt_append '(' b (c ++ [')']) (hb.not_mem (by decide))
    have hclose := cutAt_append ')' c [] (hc.not_mem (by decide))
    simp only [decodeBracketed, List.append_assoc, List.cons_append, List.nil_append, hcomma,
      hopen, hclose, assemble_eq_instr, parseRegister_eq_value, parseLiteral_eq_value,
      parseInt?_eq_some]
    exact ⟨_, _, _, ⟨x, ha, hx8, rfl⟩, ⟨y, hb, rfl⟩, ⟨z, hc, hz8, rfl⟩, hi⟩

theorem decodeOperands_of_ne_registerOnly {op : Opcode} (hop : op.format ≠ .registerOnly)
    (cs : List Char) : decodeOperands op cs = decodeBracketed op cs := by
  cases hf : op.format <;> simp_all [decodeOperands]

/-- Settles O59: what the grammar `r,s(t)` accepts, and that any other outcome is an error of this
opcode. -/
theorem bracketedOperandGrammar : Obligations.BracketedOperandGrammar := by
  intro op cs hop
  refine ⟨fun i => ?_, decodeOperands_cases op cs⟩
  rw [decodeOperands_of_ne_registerOnly hop]
  exact decodeBracketed_eq_instr_iff op cs i

/-! ### Lines of two tokens (R82, R88) -/

theorem mem_allOpcodes (op : Opcode) : op ∈ allOpcodes := by cases op <;> decide

/-- A token names no opcode exactly if it is no mnemonic. -/
theorem opcodeOf?_eq_none_iff (m : List Char) :
    opcodeOf? m = none ↔ ∀ op : Opcode, mnemonicOf op ≠ m := by
  simp [opcodeOf?, mem_allOpcodes]

/-- `InvalidOpcode` is answered at the mnemonic and nowhere else. -/
theorem decodeLine_eq_invalidOpcode_iff (l : List Char) :
    decodeLine l = .error .invalidOpcode ↔ isDiscarded l = false ∧
      ∃ m ops, tokens (trim l) = [m, ops] ∧ opcodeOf? m = none := by
  constructor
  · intro h
    have hd : isDiscarded l = false := (decodeLine_ne_discarded_iff l).mp (by simp [h])
    have ht : (tokens (trim l)).length = 2 := by
      by_contra ht
      simp [decodeLine_of_tokens_length_ne_two hd ht] at h
    obtain ⟨m, ops, htok⟩ := List.length_eq_two.mp ht
    refine ⟨hd, m, ops, htok, ?_⟩
    cases hm : opcodeOf? m with
    | none => rfl
    | some op =>
      rw [decodeLine_of_opcodeOf?_eq_some hd htok hm] at h
      obtain ⟨i, hi⟩ | ⟨why, hwhy⟩ := decodeOperands_cases op ops <;> simp_all
  · rintro ⟨hd, m, ops, htok, hm⟩
    exact decodeLine_of_opcodeOf?_eq_none hd htok hm

/-- Settles O60: the mnemonic check is the only source of `InvalidOpcode`, and past it a line is its
operand string. -/
theorem twoTokenLinesByMnemonic : Obligations.TwoTokenLinesByMnemonic := by
  refine ⟨by decide, mem_allOpcodes, fun l => ?_⟩
  simp only [decodeLine_ne_discarded_iff, decodeLine_eq_invalidOpcode_iff, opcodeOf?_eq_none_iff,
    true_and]
  intro op ops hd htok
  exact decodeLine_of_opcodeOf?_eq_some hd htok (opcodeOf?_mnemonicOf op)

/-! ### Canonical text (R98) -/

/-- The decimal text of a word is an integer literal of its signed value. -/
theorem isIntLiteral_decimal (v : Word) : IsIntLiteral (decimal v) (s32 v) :=
  (parseInt?_eq_some _ _).mp (parseInt?_decimal v)

/-- The operand string of an instruction's record decodes to the instruction. -/
theorem decodeOperands_operandText (i : Instr) :
    decodeOperands i.record.op (operandText i.record) = .instr i := by
  have hw := record_wellFormed i
  have hlit (v : Word) := isIntLiteral_decimal v
  simp only [Record.wellFormed, Bool.and_eq_true, isRegIndex_iff] at hw
  obtain ⟨⟨hr, ht⟩, hs⟩ := hw
  by_cases hop : i.record.op.format = .registerOnly
  · rw [decodeOperands_of_registerOnly hop, decodeTriple_eq_instr_iff]
    simp only [hop, isRegIndex_iff] at hs
    exact ⟨_, _, _, _, _, _, by simp only [operandText, hop], hlit i.record.r, hlit i.record.s,
      hlit i.record.t, hr, hs, ht,
      by simp only [w32_s32]⟩
  · rw [decodeOperands_of_ne_registerOnly hop, decodeBracketed_eq_instr_iff]
    refine ⟨_, _, _, _, _, _, ?_, hlit i.record.r, hlit i.record.s, hlit i.record.t, hr, ht,
      by simp only [w32_s32]⟩
    cases hf : i.record.op.format <;> simp_all [operandText]

/-- A mnemonic holds no whitespace. -/
theorem isSpace_mnemonicOf (op : Opcode) : ∀ x ∈ mnemonicOf op, isSpace x = false := by
  intro x hx
  obtain ⟨-, hspace, -⟩ := mnemonicOf_chars op x hx
  exact hspace

/-- An operand string holds no whitespace. -/
theorem isSpace_operandText (c : Record) : ∀ x ∈ operandText c, isSpace x = false := by
  intro x hx
  have hdec {v : Word} (hv : x ∈ decimal v) : isSpace x = false :=
    isSpace_of_isIntChar (decimal_chars v x hv)
  have hsep : isSpace ',' = false ∧ isSpace '(' = false ∧ isSpace ')' = false := by decide
  unfold operandText at hx
  split at hx <;> simp only [List.mem_append, List.mem_singleton] at hx <;> grind

theorem operandText_ne_nil (c : Record) : operandText c ≠ [] := by
  unfold operandText
  cases c.op.format <;> simp

section
variable {m ops : List Char} (hm : ∀ c ∈ m, isSpace c = false) (hm0 : m ≠ [])
  (hops : ∀ c ∈ ops, isSpace c = false) (hops0 : ops ≠ [])
include hm hm0 hops hops0

/-- A line of two words with a space between them is trimmed. -/
theorem trim_two_words : trim (m ++ [' '] ++ ops) = m ++ [' '] ++ ops := by
  obtain ⟨x, xs, rfl⟩ := List.exists_cons_of_ne_nil hm0
  apply trim_eq_self
  · rintro c hc
    obtain rfl : x = c := by simpa using hc
    exact hm x (by simp)
  · rintro c hc
    rw [List.getLast?_append_of_ne_nil _ hops0] at hc
    exact hops c (List.mem_of_getLast? hc)

/-- A line of two words with a space between them has these words as its tokens. -/
theorem tokens_trim_two_words : tokens (trim (m ++ [' '] ++ ops)) = [m, ops] := by
  rw [trim_two_words hm hm0 hops hops0]
  simp [tokens, splitOn_append isSpace m ops ' ' hm (by decide), splitOn_of_forall_not _ ops hops,
    hm0, hops0]

end

/-- A canonical text is a line of two words that is not discarded. -/
theorem isDiscarded_canonicalText (i : Instr) : isDiscarded (canonicalText i) = false := by
  have htrim : trim (canonicalText i) = canonicalText i :=
    trim_two_words (isSpace_mnemonicOf _) (mnemonicOf_ne_nil _) (isSpace_operandText _)
      (operandText_ne_nil _)
  obtain ⟨x, xs, hx⟩ := List.exists_cons_of_ne_nil (mnemonicOf_ne_nil i.record.op)
  obtain ⟨halnum, -, hstar⟩ := mnemonicOf_chars i.record.op x (by simp [hx])
  rw [isDiscarded, htrim, canonicalText, hx]
  simp [halnum, hstar]

/-- Settles O55: the two tokens of the canonical text are the mnemonic and the operand string, and each
decodes to what it was written from. -/
theorem canonicalTextDecodes : Obligations.CanonicalTextDecodes := by
  intro i
  have htok : tokens (trim (canonicalText i)) = [mnemonicOf i.record.op, operandText i.record] :=
    tokens_trim_two_words (isSpace_mnemonicOf _) (mnemonicOf_ne_nil _) (isSpace_operandText _)
      (operandText_ne_nil _)
  rw [decodeLine_of_opcodeOf?_eq_some (isDiscarded_canonicalText i) htok (opcodeOf?_mnemonicOf _)]
  exact decodeOperands_operandText i

end Sys2Proof.Machine
end

section
/-! PROOFS about single steps (40_step_cycle.md sections 1 to 5): what a fetching step runs and records,
the steps that fetch nothing, and the forms that name register 7. A body that leaves the machine running is
the whole step, so the register-7 forms are read off their bodies. -/

namespace Sys2Proof.Machine

/-! ### The body and the report (R127, R128) -/

theorem State.reported_of_ok {s : State} (h : s.cpuState = .ok) : s.reported = s := if_pos h

theorem State.reported_of_ne_ok {s : State} (h : s.cpuState ≠ .ok) :
    s.reported = s.emit (.report s.cpuState) := if_neg h

section
variable {s q : State} {i : Instr} (hf : Fetches s i) (hq : exec i (s.bodyStart i) = .next q)
include hf

theorem Fetches.bodyStart_running : (s.bodyStart i).cpuState = .ok :=
  (s.bodyStart_cpuState i).trans hf.running

/-- The body sees `x[7] = p + 1` as a signed number too (R123). -/
theorem Fetches.s32_bodyStart_pc : s32 ((s.bodyStart i).reg pcReg) = s32 s.pc + 1 := by
  obtain ⟨-, hpc, -⟩ := advancePrecedesTheBody s i hf
  exact hpc

include hq

/-- A body that leaves the machine running is the whole step. -/
theorem Fetches.step_of_body_ok (hk : q.cpuState = .ok) : step s = .next q := by
  rw [hf.step_next hq, State.reported_of_ok hk]

end

/-- Settles O12: the body starts in the advanced and traced state, and the report ends the step. -/
theorem stepRunsTheDecodedInstruction : Obligations.StepRunsTheDecodedInstruction := by
  intro s i hf
  refine ⟨hf.step_eq, s.bodyStart_pcReg i, s.bodyStart_reg_of_ne i, s.bodyStart_readData i,
    s.bodyStart_readSlot i, s.bodyStart_cfg i, s.bodyStart_cpuState i, s.bodyStart_traceEnabled i,
    s.bodyStart_inputs i, s.bodyStart_inputCount i, s.bodyStart_events i, ?_, ?_⟩
  · exact fun t ht hk => hf.step_of_body_ok ht hk
  · intro t ht hk
    rw [hf.step_next ht, State.reported_of_ne_ok hk]

/-! ### Events (R124, R128, R133) -/

/-- The events an instruction itself makes: one for IN and OUT, none for the others. -/
def bodyEvents (i : Instr) (s : State) : List Event :=
  match i with
  | .inp _ _ _ => [.input s.nextInput]
  | .out r _ _ => [.output (s.reg r)]
  | _ => []

theorem bodyEvents_eq_nil {i : Instr} (s : State)
    (h : ∀ r u v, i ≠ .inp r u v ∧ i ≠ .out r u v) : bodyEvents i s = [] := by
  unfold bodyEvents
  split
  · next r u v => exact absurd rfl (h r u v).1
  · next r u v => exact absurd rfl (h r u v).2
  · rfl

/-- A body adds its own events and no others. -/
theorem exec_events {i : Instr} {s t : State} (h : exec i s = .next t) :
    t.events = s.events ++ bodyEvents i s := by
  cases exec_cases i s t h with
  | halts hi => obtain ⟨r, u, v, rfl⟩ := hi; simp [bodyEvents]
  | dividesByZero hi => obtain ⟨r, u, v, rfl, -⟩ := hi; simp [bodyEvents]
  | dataFault hi => obtain ⟨r, d, b, rfl | rfl, -⟩ := hi <;> simp [bodyEvents]
  | inputs r hi => obtain ⟨u, v, rfl⟩ := hi; rfl
  | outputs r hi => obtain ⟨u, v, rfl⟩ := hi; rfl
  | stores r b d hi _ => subst hi; simp [bodyEvents]
  | writes k v h1 _ _ _ =>
    rw [bodyEvents_eq_nil s fun r u v => (h1 r u v).2, List.append_nil, State.setReg_events]
  | fallsThrough h1 _ =>
    rw [bodyEvents_eq_nil s fun r u v => ⟨(h1 r u v).2.1, (h1 r u v).2.2.1⟩, List.append_nil]

/-- Settles O15: the trace precedes the body, the body adds its own events, the report follows. -/
theorem eventsOfAStepInOrder : Obligations.EventsOfAStepInOrder := by
  intro s t i hf ht
  obtain ⟨q, hq⟩ := exec_answers i (s.bodyStart i)
  cases (hf.step_next hq).symm.trans ht
  rw [q.reported_events, exec_events hq, s.bodyStart_events i, q.reported_cpuState]
  unfold bodyEvents
  rewrite [s.bodyStart_nextInput i]
  rfl

/-! ### Steps that fetch nothing or are refused (R121, R122, 30_encoding.md R77) -/

/-- Settles O11: the step raises and reports, and leaves the host's side otherwise alone. -/
theorem fetchFaultReportsOnce : Obligations.FetchFaultReportsOnce := by
  intro s hc hk hout
  refine ⟨_, step_of_pc_out_of_range s hc hk (s.pcInRange_eq_false_iff.mpr hout), ?_, by simp, by simp,
    by simp, by simp⟩
  simp [State.reported_events]

/-- Settles O17: the step looks at the capacity first, and at the fetched word last. -/
theorem illFormedWordGetsNoStep : Obligations.IllFormedWordGetsNoStep := by
  constructor
  · intro s why hc hk hlow hhigh hdec
    have hp : s.pcInRange = true := s.pcInRange_iff.mpr ⟨hlow, hhigh⟩
    have hw : decode s.fetchWord = .illFormed why := hdec
    rw [step, if_pos hc, if_pos hk, if_pos hp, hw]
    rfl
  · intro s hc
    exact if_neg hc

theorem SameArch.trans {s t q : State} (h : SameArch s t) (h' : SameArch t q) : SameArch s q where
  cfg := h'.cfg.trans h.cfg
  regs k := (h'.regs k).trans (h.regs k)
  data a := (h'.data a).trans (h.data a)
  slots p := (h'.slots p).trans (h.slots p)
  cpu := h'.cpu.trans h.cpu
  trace := h'.trace.trans h.trace

theorem SameArch.refl (s : State) : SameArch s s :=
  ⟨rfl, fun _ => rfl, fun _ => rfl, fun _ => rfl, rfl, rfl⟩

/-- Settles O9, by induction on the number of steps: each is one report. -/
theorem stoppedMachineStaysStopped : Obligations.StoppedMachineStaysStopped := by
  intro n
  induction n with
  | zero => intro s _ _; exact ⟨s, rfl, SameArch.refl s, by simp⟩
  | succ n ih =>
    intro s hc hk
    have hone : OnlyEvent (.report s.cpuState) s s.reported := s.reported_onlyEvent hk
    obtain ⟨t, hrun, harch, hev⟩ := ih s.reported (by simpa using hc) (by simpa using hk)
    refine ⟨t, ?_, hone.arch.trans harch, ?_⟩
    · rw [core_run_succ n s _ (step_of_stopped s hc hk), hrun]
    · rw [hev, hone.events, s.reported_cpuState, List.replicate_succ, List.append_assoc,
        List.singleton_append]

/-! ### After a reset (70_reset_and_hazards.md section 2, 10_state.md R38, R41) -/

/-- Settles O1: the machine after reset is a cleared machine with the default configuration. -/
theorem resetLeavesSpecValues : Obligations.ResetLeavesSpecValues := by
  obtain ⟨hreg, hcell0, hcells, hcpu, hslots, -⟩ :=
    initialiseGivesResetValues State.reset true (by decide)
  exact ⟨hreg, hcell0, hcells, hslots rfl, hcpu, rfl, rfl⟩

/-- A cleared machine fetches the filler HALT. -/
theorem State.fetches_initialise_true (s : State) (hc : s.cfg.wf) :
    Fetches (s.initialise true) (.halt 0 0 0) where
  capacity := hc
  running := rfl
  low := by simp
  high := by
    have := hc.1
    simp
    omega
  decoded := decode_zero

/-- Settles O4: the filler HALT only advances `x[7]` from 0. -/
theorem initialisedMachineHaltsAtOnce : Obligations.InitialisedMachineHaltsAtOnce := by
  intro s hc
  obtain ⟨-, hstep⟩ := haltStopsTheMachine 0 0 0 (s.initialise true)
  obtain ⟨t, ht, hcpu, hpc, hreg, -⟩ := hstep (s.fetches_initialise_true hc)
  refine ⟨t, ht, hcpu, by simpa using hpc, fun k hk => ?_⟩
  rw [hreg k hk, State.reg_initialise]

/-! ### IN, DIV and the effective address (41_halt_io.md, 42_arithmetic.md R156, R125) -/

theorem exec_inp (r u v : RegIdx) (s : State) :
    exec (.inp r u v) s = .next (s.takeInput.setReg r s.nextInput) := rfl

theorem State.nextInput_of_cons {s : State} {x : Word} {rest : List Word} (h : s.inputs = x :: rest) :
    s.nextInput = x := by
  simp [State.nextInput, h]

/-- Settles O20: the body of IN takes the host's next word and writes it to `x[r]`. -/
theorem inStoresTheHostsWord : Obligations.InStoresTheHostsWord := by
  intro r u v s
  refine ⟨_, s.nextInput, exec_inp r u v s, State.reg_setReg_self _ r _, fun k hk => ?_,
    fun x rest hx => ⟨State.nextInput_of_cons hx, ?_⟩, fun h => ?_, rfl, rfl, rfl, rfl, rfl,
    fun a => rfl, fun p => rfl⟩
  · rw [State.reg_setReg_of_ne _ r k _ hk, State.takeInput_reg]
  · simp [hx]
  · simp [h]

/-- Settles O27: the one quotient that does not fit is narrowed. -/
theorem divOverflowWraps : Obligations.DivOverflowWraps := by
  intro r u v s hu hv
  refine ⟨_, exec_div_of_ne_zero r u v s (by omega), ?_, s.setReg_onlyReg r _⟩
  rw [State.reg_setReg_self, quotient, hu, hv]
  decide

/-- Settles O28: the effective address is the narrowed exact sum. -/
theorem effectiveAddressWraps : Obligations.EffectiveAddressWraps := by
  intro s d b
  exact ⟨u32_w32 _, fun hlow hhigh => s32_w32 _ ⟨hlow, hhigh⟩⟩

/-! ### Jumps (45_branches.md R186, R189) -/

/-- The step of a fetched jump is its body: it leaves the machine running, at the target exactly when
the condition holds of the tested register after the advance. -/
theorem JumpsWhen.step {mk : RegIdx → Word → RegIdx → Instr} {cond : Int → Prop}
    (hj : JumpsWhen mk cond) {s : State} {r b : RegIdx} {d : Word} (hf : Fetches s (mk r d b)) :
    ∃ t, step s = .next t ∧ t.cpuState = .ok ∧
      (cond (s32 ((s.bodyStart (mk r d b)).reg r)) →
        t.pc = (s.bodyStart (mk r d b)).effAddr d b) ∧
      (¬ cond (s32 ((s.bodyStart (mk r d b)).reg r)) → t.pc = w32 (s32 s.pc + 1)) := by
  obtain ⟨t, ht, htaken, hnot, honly⟩ := hj r d b (s.bodyStart (mk r d b))
  have hk : t.cpuState = .ok := honly.rest.cpu.trans hf.bodyStart_running
  exact ⟨t, hf.step_of_body_ok ht hk, hk, htaken, fun hc => (hnot hc).trans (s.bodyStart_pcReg _)⟩

/-- A target with base register 7 is relative to the next slot. -/
theorem Fetches.u32_effAddr_pcReg {s : State} {i : Instr} (hf : Fetches s i) (d : Word) :
    (u32 ((s.bodyStart i).effAddr d pcReg) : Int) = (s32 s.pc + 1 + s32 d) % 4294967296 := by
  obtain ⟨hsum, -⟩ := effectiveAddressWraps (s.bodyStart i) d pcReg
  rw [hsum, hf.s32_bodyStart_pc, Int.add_comm]

/-- Settles O39: JNE jumps when `x[r]`, which the advance left alone, is not zero. -/
theorem jumpIsRelativeToNextSlot : Obligations.JumpIsRelativeToNextSlot := by
  intro s r d hf hr
  obtain ⟨t, ht, hk, htaken, hnot⟩ := jneJumpsWhenNotZero.step hf
  rw [s.bodyStart_reg_of_ne _ r hr] at htaken hnot
  refine ⟨fun hc => ⟨t, ht, hk, ?_⟩, fun hz => ⟨t, ht, hk, ?_⟩⟩
  · rw [htaken hc, hf.u32_effAddr_pcReg]
  · rw [hnot (not_not_intro hz), s32_advance s hf.capacity hf.pcInRange]

section
variable {mk : RegIdx → Word → RegIdx → Instr} {cond : Int → Prop} (hj : JumpsWhen mk cond)
  {s : State} {b : RegIdx} {d : Word} (hf : Fetches s (mk pcReg d b))
include hj hf

/-- A jump that tests register 7 tests `p + 1`, which is at least 1. -/
theorem JumpsWhen.step_testing_pc :
    ∃ t, Machine.step s = .next t ∧ t.cpuState = .ok ∧
      ((∀ n ≥ 1, cond n) → t.pc = (s.bodyStart (mk pcReg d b)).effAddr d b) ∧
      ((∀ n ≥ 1, ¬ cond n) → t.pc = w32 (s32 s.pc + 1)) := by
  obtain ⟨t, ht, hk, htaken, hnot⟩ := hj.step hf
  have hpos : s32 ((s.bodyStart (mk pcReg d b)).reg pcReg) ≥ 1 := by
    have := hf.low
    rw [hf.s32_bodyStart_pc]
    omega
  exact ⟨t, ht, hk, fun h => htaken (h _ hpos), fun h => hnot (h _ hpos)⟩

theorem JumpsWhen.always_jumps_testing_pc (hc : ∀ n ≥ 1, cond n) :
    ∃ t, Machine.step s = .next t ∧ t.pc = (s.bodyStart (mk pcReg d b)).effAddr d b := by
  obtain ⟨t, ht, -, htaken, -⟩ := hj.step_testing_pc hf
  exact ⟨t, ht, htaken hc⟩

theorem JumpsWhen.never_jumps_testing_pc (hc : ∀ n ≥ 1, ¬ cond n) :
    ∃ t, Machine.step s = .next t ∧ s32 t.pc = s32 s.pc + 1 := by
  obtain ⟨t, ht, -, -, hnot⟩ := hj.step_testing_pc hf
  exact ⟨t, ht, by rw [hnot hc, s32_advance s hf.capacity hf.pcInRange]⟩

end

/-- Settles O40: the six conditions on a number that is at least 1. -/
theorem testingRegisterSevenIsConstant : Obligations.TestingRegisterSevenIsConstant := by
  intro s d b
  constructor
  · rintro i (rfl | rfl | rfl) hf
    · exact jgtJumpsWhenPositive.always_jumps_testing_pc hf (by omega)
    · exact jgeJumpsWhenNotNegative.always_jumps_testing_pc hf (by omega)
    · exact jneJumpsWhenNotZero.always_jumps_testing_pc hf (by omega)
  · rintro i (rfl | rfl | rfl) hf
    · exact jltJumpsWhenNegative.never_jumps_testing_pc hf (by omega)
    · exact jleJumpsWhenNotPositive.never_jumps_testing_pc hf (by omega)
    · exact jeqJumpsWhenZero.never_jumps_testing_pc hf (by omega)

/-! ### Forms that name register 7 (40_step_cycle.md section 5) -/

/-- The step of a fetched instruction whose body is one register write. -/
theorem Fetches.step_of_setReg {s : State} {i : Instr} (hf : Fetches s i) {r : RegIdx} {v : Word}
    (hx : exec i (s.bodyStart i) = .next ((s.bodyStart i).setReg r v)) :
    ∃ t, step s = .next t ∧ t.cpuState = .ok ∧ t.reg r = v ∧
      (r ≠ pcReg → t.pc = w32 (s32 s.pc + 1)) := by
  have hk : ((s.bodyStart i).setReg r v).cpuState = .ok := hf.bodyStart_running
  refine ⟨_, hf.step_of_body_ok hx hk, hk, State.reg_setReg_self _ r v, fun hr => ?_⟩
  rw [State.pc_eq, State.reg_setReg_of_ne _ r pcReg v hr.symm, s.bodyStart_pcReg]
  rfl

/-- Settles O16: each form is read off its body, which sees `x[7] = p + 1`. -/
theorem registerSevenIsTheNextSlot : Obligations.RegisterSevenIsTheNextSlot := by
  intro s r b d
  refine ⟨fun hr hf => ?_, fun hf hlow hhigh => ?_, fun hr hf => ?_, fun hf => ?_, fun hf => ?_,
    fun hf => ?_⟩
  · obtain ⟨t, ht, hk, hreg, hpc⟩ := hf.step_of_setReg (exec_add r pcReg pcReg _)
    refine ⟨t, ht, hk, hpc hr, ?_⟩
    rw [hreg, u32_w32, hf.s32_bodyStart_pc, Int.two_mul]
  · have ha : inRange (s.bodyStart (.st pcReg d b)).cfg ((s.bodyStart (.st pcReg d b)).effAddr d b) =
        true := by
      rw [s.bodyStart_cfg]
      exact (inRange_iff _ _).mpr ⟨hlow, hhigh⟩
    have hx := exec_st_of_inRange pcReg b d _ ha
    refine ⟨_, hf.step_of_body_ok hx hf.bodyStart_running, hf.bodyStart_running, ?_, ?_⟩
    · exact s.bodyStart_pcReg _
    · rw [← hf.s32_bodyStart_pc]
      exact congrArg s32 (State.readData_writeData_self _ _ _)
  · obtain ⟨t, ht, hk, hreg, hpc⟩ := hf.step_of_setReg (exec_lda r pcReg d _)
    exact ⟨t, ht, hk, hpc hr, by rw [hreg, hf.u32_effAddr_pcReg]⟩
  · obtain ⟨t, ht, hk, -, hnot⟩ := jeqJumpsWhenZero.step_testing_pc hf
    exact ⟨t, ht, hk, hnot (by omega)⟩
  · obtain ⟨t, ht, hk, hreg, -⟩ := hf.step_of_setReg (exec_lda pcReg pcReg d _)
    exact ⟨t, ht, hk, by rw [State.pc_eq, hreg, hf.u32_effAddr_pcReg]⟩
  · obtain ⟨t, ht, hk, hreg, -⟩ := hf.step_of_setReg (exec_ldc pcReg b d _)
    exact ⟨t, ht, hk, hreg⟩

end Sys2Proof.Machine
end

section
/-! PROOFS about data memory and the memory ports (20_memory.md sections 1, 2 and 6; 50_interfaces.md
R214, R215). What a store in range does to the cells is read off `step_dmem_cases`; the ports show the
access of the fetched instruction, and no other instruction than LD and ST makes one. -/

namespace Sys2Proof.Machine

/-! ### Cells (20_memory.md sections 1 and 6) -/

theorem cast_cellIndex {c : Config} {v : Word} (h : inRange c v = true) :
    (cellIndex v : Int) = s32 v :=
  Int.toNat_of_nonneg ((inRange_iff c v).mp h).1

/-- A step changes the cells only if it fetches an ST in range, and then that cell alone. -/
theorem step_readData_cases {s t : State} (h : step s = .next t) :
    (∀ a, t.readData a = s.readData a) ∨ ∃ r b d, Fetches s (.st r d b) ∧
      inRange s.cfg ((s.bodyStart (.st r d b)).effAddr d b) = true ∧
      ∀ a, t.readData a = if a = cellIndex ((s.bodyStart (.st r d b)).effAddr d b)
        then (s.bodyStart (.st r d b)).reg r else s.readData a := by
  obtain ⟨hcfg, -, -⟩ := step_keeps s t h
  obtain hd | ⟨r, b, d, hf, ha, hd⟩ := step_dmem_cases h
  · exact .inl fun a => by rw [State.readData, hcfg, hd]; rfl
  · refine .inr ⟨r, b, d, hf, ha, fun a => ?_⟩
    rw [← State.readData_writeData, State.readData, hcfg, hd]
    rfl

/-- Settles O46: a cell that changed is the one of the fetched ST. -/
theorem onlyStoreChangesDataMemory : Obligations.OnlyStoreChangesDataMemory := by
  intro s t a h hne
  obtain hsame | ⟨r, b, d, hf, ha, hcells⟩ := step_readData_cases h
  · exact absurd (hsame a) hne
  · have hcell : a = cellIndex ((s.bodyStart (.st r d b)).effAddr d b) := by
      by_contra hother
      exact hne (by rw [hcells a, if_neg hother])
    exact ⟨r, b, d, hf, by rw [hcell, cast_cellIndex ha], by rw [hcells a, if_pos hcell]⟩

/-- Settles O49, by induction on the number of steps: the first step changes no cell that it does not
store to. -/
theorem cellKeepsItsValueUntilStored : Obligations.CellKeepsItsValueUntilStored := by
  intro n
  induction n with
  | zero =>
    intro s t a h _
    cases h
    rfl
  | succ n ih =>
    intro s t a h hno
    obtain ⟨q, hq, hrun⟩ := core_run_succ_cases n s t h
    have hfirst : q.readData a = s.readData a := by
      by_contra hne
      obtain ⟨r, b, d, hf, ha, -⟩ := onlyStoreChangesDataMemory s q a hq hne
      exact hno 0 s (by omega) rfl r b d hf ha
    have hrest : t.readData a = q.readData a := ih q t a hrun fun m p hm hp =>
      hno (m + 1) p (by omega) ((core_run_succ m s q hq).trans hp)
    exact hrest.trans hfirst

/-! ### Ports (50_interfaces.md R214, R215) -/

/-- A fetching step shows the fetch and the access of its instruction. -/
theorem Fetches.traffic_eq {s : State} {i : Instr} (hf : Fetches s i) :
    s.traffic = ⟨some (cellIndex s.pc, s.fetchWord), dataAccess i (s.bodyStart i)⟩ := by
  have hd : decode s.fetchWord = .instr i := hf.decoded
  simp only [State.traffic, if_pos (⟨hf.capacity, hf.running, hf.pcInRange⟩ : _ ∧ _ ∧ _), hd]

/-- A step that fetches nothing shows nothing. -/
theorem State.traffic_of_no_fetch {s : State} (h : s.cpuState ≠ .ok ∨ s.pcInRange = false) :
    s.traffic = ⟨none, none⟩ := by
  unfold State.traffic
  rw [if_neg]
  rintro ⟨-, hk, hp⟩
  simp [hk, hp] at h

/-- The access at address `v` is to cell `a`. -/
theorem inRange_and_cellIndex_eq_iff (c : Config) (v : Word) (a : Nat) :
    (inRange c v = true ∧ cellIndex v = a) ↔ (s32 v = (a : Int) ∧ a < c.cap) := by
  rw [inRange_iff, cellIndex]
  omega

/-- The load port shows the in-range access of an LD. -/
theorem dataAccess_eq_load_iff (i : Instr) (s : State) (a : Nat) (v : Word) :
    dataAccess i s = some (.load a v) ↔ ∃ r b d, i = .ld r d b ∧
      (s32 (s.effAddr d b) = (a : Int) ∧ a < s.cfg.cap) ∧ v = s.readData a := by
  simp only [← inRange_and_cellIndex_eq_iff]
  unfold dataAccess
  split <;> grind

/-- The store port shows the in-range access of an ST. -/
theorem dataAccess_eq_store_iff (i : Instr) (s : State) (a : Nat) (v : Word) :
    dataAccess i s = some (.store a v) ↔ ∃ r b d, i = .st r d b ∧
      (s32 (s.effAddr d b) = (a : Int) ∧ a < s.cfg.cap) ∧ v = s.reg r := by
  simp only [← inRange_and_cellIndex_eq_iff]
  unfold dataAccess
  split <;> grind

section
variable {s t : State} (h : step s = .next t)
include h

/-- A step that answers fetches an instruction, or nothing. -/
theorem step_fetches_cases :
    (∃ i, Fetches s i) ∨ (s.cpuState ≠ .ok ∨ s.pcInRange = false) := by
  obtain ⟨-, ⟨hk, -⟩ | ⟨-, hp, -⟩ | ⟨i, -, hf, -⟩⟩ := step_cases s t h
  · exact .inr (.inl hk)
  · exact .inr (.inr hp)
  · exact .inl ⟨i, hf⟩

/-- The data port of a step shows the access of the fetched instruction. -/
theorem traffic_data_eq_some_iff (acc : DataAccess) :
    s.traffic.data = some acc ↔ ∃ i, Fetches s i ∧ dataAccess i (s.bodyStart i) = some acc := by
  obtain ⟨i, hf⟩ | hno := step_fetches_cases h
  · rw [hf.traffic_eq]
    exact ⟨fun hacc => ⟨i, hf, hacc⟩, fun ⟨j, hj, hacc⟩ => hf.unique hj ▸ hacc⟩
  · rw [State.traffic_of_no_fetch hno]
    refine ⟨nofun, fun ⟨i, hf, _⟩ => ?_⟩
    simp [hf.running, hf.pcInRange] at hno

theorem traffic_data_eq_load_iff (a : Nat) (v : Word) :
    s.traffic.data = some (.load a v) ↔ ∃ r b d, Fetches s (.ld r d b) ∧
      (s32 ((s.bodyStart (.ld r d b)).effAddr d b) = (a : Int) ∧ a < s.cfg.cap) ∧
      v = s.readData a := by
  simp only [traffic_data_eq_some_iff h, dataAccess_eq_load_iff]
  constructor
  · rintro ⟨_, hf, r, b, d, rfl, ha, hv⟩
    exact ⟨r, b, d, hf, by simpa using ha, by simpa using hv⟩
  · rintro ⟨r, b, d, hf, ha, hv⟩
    exact ⟨_, hf, r, b, d, rfl, by simpa using ha, by simpa using hv⟩

theorem traffic_data_eq_store_iff (a : Nat) (v : Word) :
    s.traffic.data = some (.store a v) ↔ ∃ r b d, Fetches s (.st r d b) ∧
      (s32 ((s.bodyStart (.st r d b)).effAddr d b) = (a : Int) ∧ a < s.cfg.cap) ∧
      v = (s.bodyStart (.st r d b)).reg r := by
  simp only [traffic_data_eq_some_iff h, dataAccess_eq_store_iff]
  constructor
  · rintro ⟨_, hf, r, b, d, rfl, ha, hv⟩
    exact ⟨r, b, d, hf, by simpa using ha, hv⟩
  · rintro ⟨r, b, d, hf, ha, hv⟩
    exact ⟨_, hf, r, b, d, rfl, by simpa using ha, hv⟩

/-- The fetch port shows the slot of an in-range program counter of a running machine. -/
theorem traffic_fetch_eq :
    s.traffic.fetch = if s.cpuState = .ok ∧ 0 ≤ s32 s.pc ∧ s32 s.pc < (s.cfg.cap : Int)
      then some ((s32 s.pc).toNat, s.readSlot (s32 s.pc).toNat) else none := by
  obtain ⟨i, hf⟩ | hno := step_fetches_cases h
  · rw [hf.traffic_eq, if_pos ⟨hf.running, hf.low, hf.high⟩]
    rfl
  · rw [State.traffic_of_no_fetch hno, if_neg]
    rintro ⟨hk, hrange⟩
    simp [hk, s.pcInRange_iff.mpr hrange] at hno

theorem traffic_data_of_fetch_eq_none (hfetch : s.traffic.fetch = none) : s.traffic.data = none := by
  obtain ⟨i, hf⟩ | hno := step_fetches_cases h
  · rw [hf.traffic_eq] at hfetch
    cases hfetch
  · rw [State.traffic_of_no_fetch hno]

/-- A step that shows no store changes no cell. -/
theorem readData_of_traffic_ne_store (hno : ∀ a v, s.traffic.data ≠ some (.store a v)) (b : Nat) :
    t.readData b = s.readData b := by
  obtain hsame | ⟨r, c, d, hf, ha, -⟩ := step_readData_cases h
  · exact hsame b
  · exact absurd ((traffic_data_eq_store_iff h _ _).mpr
      ⟨r, c, d, hf, (inRange_and_cellIndex_eq_iff _ _ _).mp ⟨ha, rfl⟩, rfl⟩) (hno _ _)

/-- A step that shows a store makes it. -/
theorem readData_of_traffic_eq_store {a : Nat} {v : Word}
    (hst : s.traffic.data = some (.store a v)) (b : Nat) :
    t.readData b = if b = a then v else s.readData b := by
  obtain ⟨r, c, d, hf, haddr, rfl⟩ := (traffic_data_eq_store_iff h a v).mp hst
  obtain ⟨hin, rfl⟩ := (inRange_and_cellIndex_eq_iff _ _ _).mpr haddr
  have hx := exec_st_of_inRange r c d (s.bodyStart (.st r d c)) (by rwa [s.bodyStart_cfg])
  cases (hf.step_of_body_ok hx hf.bodyStart_running).symm.trans h
  rw [State.readData_writeData, s.bodyStart_readData]

end

/-- Settles O50: the ports show the fetched slot and the access of the fetched instruction, and data
memory changes only by a store that they show. -/
theorem portsAgreeWithTheStep : Obligations.PortsAgreeWithTheStep := by
  intro s t h
  refine ⟨traffic_fetch_eq h, traffic_data_of_fetch_eq_none h, fun r b d a hf hcap ha => ?_,
    fun r b d a hf hcap ha => ?_, fun a v hload => ?_, fun a v hstore => ?_, fun b => ?_⟩
  · exact (traffic_data_eq_load_iff h a _).mpr ⟨r, b, d, hf, ⟨ha, hcap⟩, rfl⟩
  · exact (traffic_data_eq_store_iff h a _).mpr ⟨r, b, d, hf, ⟨ha, hcap⟩, rfl⟩
  · obtain ⟨r, b, d, hf, ⟨ha, hcap⟩, hv⟩ := (traffic_data_eq_load_iff h a v).mp hload
    exact ⟨hcap, hv, r, b, d, hf, ha⟩
  · obtain ⟨r, b, d, hf, ⟨ha, hcap⟩, -⟩ := (traffic_data_eq_store_iff h a v).mp hstore
    exact ⟨hcap, r, b, d, hf, ha⟩
  · split
    · next a v hst => exact readData_of_traffic_eq_store h hst b
    · next hno => exact readData_of_traffic_ne_store h (fun a v hst => hno a v hst) b

end Sys2Proof.Machine
end

section
/-! PROOFS about the host's operations (50_interfaces.md Part A): which of them return to `OK` or change the
program, where a run ends (40_step_cycle.md R129), and what a load has read (30_encoding.md Part D). -/

namespace Sys2Proof.Machine

/-! ### Restarts (70_reset_and_hazards.md section 1) -/

/-- Loading leaves the machine as `initialise` does but for instruction memory. -/
theorem command_load_keeps {s t : State} {src : List Char} (h : command (.load src) s = .next t) :
    t.cpuState = .ok ∧ t.cfg = s.cfg := by
  obtain rfl | ⟨is, -, rfl⟩ := command_load_cases h <;> simp

theorem step_keeps_stopped {s t : State} (hk : s.cpuState ≠ .ok) (h : step s = .next t) :
    t.cpuState ≠ .ok := by
  obtain ⟨htable, -⟩ := cpuStateFollowsTheTable
  obtain ⟨hsame, -⟩ := htable s t h
  rwa [hsame hk]

/-- Settles O5: steps, and with them runs, keep a stopped machine stopped, and every restart ends with
what `initialise` sets. -/
theorem onlyRestartsReturnToOk : Obligations.OnlyRestartsReturnToOk := by
  constructor
  · intro c s t h hs ht
    cases c with
    | initClear => simp
    | initKeep => simp
    | powerOn => simp
    | step => exact absurd ht (step_keeps_stopped hs h)
    | run fuel => exact absurd ht (run_keeps (fun _ _ => step_keeps_stopped) hs h)
    | load src => simp
    | setTrace on => cases h; exact absurd ht hs
    | supplyInput v => cases h; exact absurd ht hs
  · rintro s t (h | h | h | ⟨src, h⟩)
    · cases h; rfl
    · cases h; rfl
    · cases h; rfl
    · exact (command_load_keeps h).1

/-! ### The program and the capacity (10_state.md section 4) -/

/-- Settles O45: steps, and with them runs, touch neither the configuration nor instruction memory. -/
theorem onlyClearAndLoadChangeTheProgram : Obligations.OnlyClearAndLoadChangeTheProgram := by
  have hkeep {s t : State} (h : t.cfg = s.cfg ∧ t.imem = s.imem) (P : Prop) :
      t.cfg = s.cfg ∧ ((∃ p, t.readSlot p ≠ s.readSlot p) → P) := by
    obtain ⟨hcfg, himem⟩ := h
    refine ⟨hcfg, fun ⟨p, hp⟩ => absurd ?_ hp⟩
    rw [State.readSlot, State.readSlot, himem]
  have hstep {s t : State} (h : step s = .next t) : t.cfg = s.cfg ∧ t.imem = s.imem := by
    obtain ⟨hcfg, himem, -⟩ := step_keeps s t h
    exact ⟨hcfg, himem⟩
  intro c s t h
  cases c with
  | initClear => cases h; simp
  | initKeep => cases h; exact hkeep ⟨rfl, rfl⟩ _
  | powerOn => cases h; exact ⟨rfl, by simp⟩
  | step => exact hkeep (hstep h) _
  | run fuel =>
    refine hkeep (run_keeps (P := fun q => q.cfg = s.cfg ∧ q.imem = s.imem) ?_ ⟨rfl, rfl⟩ h) _
    rintro q q' ⟨hcfg, himem⟩ hq
    obtain ⟨hcfg', himem'⟩ := hstep hq
    exact ⟨hcfg'.trans hcfg, himem'.trans himem⟩
  | load src => exact ⟨(command_load_keeps h).2, by simp⟩
  | setTrace on => cases h; exact hkeep ⟨rfl, rfl⟩ _
  | supplyInput v => cases h; exact hkeep ⟨rfl, rfl⟩ _

/-! ### run (40_step_cycle.md R129) -/

/-- The first `n` states of the step sequence of `s`, those before `n`, are `OK`. -/
def OkBefore (n : Nat) (s : State) : Prop :=
  ∀ m, m < n → ∃ q : State, Host.Core.run Sys2Proof.core m s = .next q ∧ q.cpuState = .ok

theorem okBefore_zero (s : State) : OkBefore 0 s := fun m hm => absurd hm m.not_lt_zero

theorem okBefore_succ {n : Nat} {s t : State} (hs : s.cpuState = .ok) (ht : step s = .next t)
    (h : OkBefore n t) : OkBefore (n + 1) s := by
  intro m hm
  cases m with
  | zero => exact ⟨s, rfl, hs⟩
  | succ m =>
    obtain ⟨q, hq, hk⟩ := h m (by omega)
    exact ⟨q, (core_run_succ m s t ht).trans hq, hk⟩

theorem runLoop_of_stopped (fuel : Nat) {s : State} (h : s.cpuState ≠ .ok) :
    runLoop fuel s = .stopped s := by
  cases fuel <;> exact if_neg h

theorem runLoop_zero_of_ok {s : State} (h : s.cpuState = .ok) : runLoop 0 s = .running s := if_pos h

theorem runLoop_succ_of_step (fuel : Nat) {s t : State} (h : s.cpuState = .ok)
    (ht : step s = .next t) : runLoop (fuel + 1) s = runLoop fuel t := by
  simp only [runLoop, if_pos h, ht]

/-- The three ways a loop with budget goes on from a running machine. -/
theorem runLoop_succ_cases (fuel : Nat) {s : State} (h : s.cpuState = .ok) :
    (∃ t, step s = .next t ∧ runLoop (fuel + 1) s = runLoop fuel t) ∨
      ∃ r, runLoop (fuel + 1) s = .refused r := by
  cases hs : step s with
  | next t => exact .inl ⟨t, rfl, runLoop_succ_of_step fuel h hs⟩
  | fault f => exact nomatch f
  | refused r => exact .inr ⟨r, by simp only [runLoop, if_pos h, hs]⟩

/-- A loop that returns does so at the first stopped state. -/
theorem runLoop_eq_stopped {fuel : Nat} {s t : State} (h : runLoop fuel s = .stopped t) :
    t.cpuState ≠ .ok ∧
      ∃ n, n ≤ fuel ∧ Host.Core.run Sys2Proof.core n s = .next t ∧ OkBefore n s := by
  induction fuel generalizing s with
  | zero =>
    by_cases hk : s.cpuState = .ok
    · simp [runLoop_zero_of_ok hk] at h
    · cases (runLoop_of_stopped 0 hk).symm.trans h
      exact ⟨hk, 0, le_rfl, rfl, okBefore_zero t⟩
  | succ fuel ih =>
    by_cases hk : s.cpuState = .ok
    · obtain ⟨q, hq, hloop⟩ | ⟨r, hloop⟩ := runLoop_succ_cases fuel hk
      · obtain ⟨ht, n, hn, hrun, hok⟩ := ih (hloop.symm.trans h)
        exact ⟨ht, n + 1, by omega, (core_run_succ n s q hq).trans hrun, okBefore_succ hk hq hok⟩
      · simp [hloop] at h
    · cases (runLoop_of_stopped _ hk).symm.trans h
      exact ⟨hk, 0, by omega, rfl, okBefore_zero t⟩

/-- A loop that uses its budget up has met running states only, the last among them. -/
theorem runLoop_eq_running {fuel : Nat} {s t : State} (h : runLoop fuel s = .running t) :
    Host.Core.run Sys2Proof.core fuel s = .next t ∧ OkBefore (fuel + 1) s := by
  have hk : s.cpuState = .ok := by
    by_contra hk
    simp [runLoop_of_stopped fuel hk] at h
  induction fuel generalizing s with
  | zero =>
    cases (runLoop_zero_of_ok hk).symm.trans h
    refine ⟨rfl, fun m hm => ?_⟩
    obtain rfl : m = 0 := by omega
    exact ⟨t, rfl, hk⟩
  | succ fuel ih =>
    obtain ⟨q, hq, hloop⟩ | ⟨r, hloop⟩ := runLoop_succ_cases fuel hk
    · rw [hloop] at h
      have hkq : q.cpuState = .ok := by
        by_contra hkq
        simp [runLoop_of_stopped fuel hkq] at h
      obtain ⟨hrun, hok⟩ := ih h hkq
      exact ⟨(core_run_succ fuel s q hq).trans hrun, okBefore_succ hk hq hok⟩
    · simp [hloop] at h

/-- A loop returns if the step sequence reaches a stopped state within the budget. -/
theorem runLoop_stops {fuel n : Nat} {s q : State} (hn : n ≤ fuel)
    (hrun : Host.Core.run Sys2Proof.core n s = .next q) (hq : q.cpuState ≠ .ok) :
    ∃ t, runLoop fuel s = .stopped t := by
  induction fuel generalizing n s with
  | zero =>
    obtain rfl : n = 0 := by omega
    cases hrun
    exact ⟨q, runLoop_of_stopped 0 hq⟩
  | succ fuel ih =>
    by_cases hk : s.cpuState = .ok
    · cases n with
      | zero => cases hrun; exact absurd hk hq
      | succ n =>
        obtain ⟨t, ht, hrest⟩ := core_run_succ_cases n s q hrun
        rw [runLoop_succ_of_step fuel hk ht]
        exact ih (by omega) hrest
    · exact ⟨s, runLoop_of_stopped _ hk⟩

/-- Under the invariant a loop returns or uses its budget up. -/
theorem State.Inv.runLoop_answers {s : State} (h : s.Inv) (fuel : Nat) :
    (∃ t, runLoop fuel s = .stopped t) ∨ (∃ t, runLoop fuel s = .running t) := by
  induction fuel generalizing s with
  | zero =>
    by_cases hk : s.cpuState = .ok
    · exact .inr ⟨s, runLoop_zero_of_ok hk⟩
    · exact .inl ⟨s, runLoop_of_stopped 0 hk⟩
  | succ fuel ih =>
    by_cases hk : s.cpuState = .ok
    · obtain ⟨t, ht⟩ := invariantMachineAlwaysSteps s h
      rw [runLoop_succ_of_step fuel hk ht]
      exact ih (stepKeepsTheInvariant s t h ht)
    · exact .inl ⟨s, runLoop_of_stopped _ hk⟩

theorem run_of_ok (fuel : Nat) {s : State} (h : s.cpuState = .ok) : run fuel s = runLoop fuel s :=
  if_pos (.inl h)

theorem run_of_stopped_of_not_steps (fuel : Nat) {s : State} (h : s.cpuState ≠ .ok)
    (hp : s.cfg.runStepsWhenStopped = false) : run fuel s = .stopped s :=
  (if_pos (.inr hp)).trans (runLoop_of_stopped fuel h)

theorem run_of_stopped_of_steps (fuel : Nat) {s : State} (hc : s.cfg.wf) (h : s.cpuState ≠ .ok)
    (hp : s.cfg.runStepsWhenStopped = true) : run fuel s = .stopped s.reported := by
  rw [run, if_neg (by simp [h, hp]), step_of_stopped s hc h]

/-- On a stopped machine of legal capacity a run makes the report that the parameter says. -/
theorem run_of_stopped (fuel : Nat) {s : State} (hc : s.cfg.wf) (h : s.cpuState ≠ .ok) :
    ∃ t, run fuel s = .stopped t ∧ SameArch s t ∧ t.events = s.events ++
      (if s.cfg.runStepsWhenStopped = true then [.report s.cpuState] else []) := by
  cases hp : s.cfg.runStepsWhenStopped with
  | false => exact ⟨s, run_of_stopped_of_not_steps fuel h hp, SameArch.refl s, by simp⟩
  | true =>
    have hone := s.reported_onlyEvent h
    exact ⟨_, run_of_stopped_of_steps fuel hc h hp, hone.arch, by simpa using hone.events⟩

/-- Settles O18: from a running machine a run is the loop, whose ends are described above. -/
theorem runEndsAtTheFirstStop : Obligations.RunEndsAtTheFirstStop := by
  refine ⟨fun fuel s t hk => ?_, fun fuel n s q hk hn hrun hq => ?_, fun fuel s h => ?_,
    fun fuel s => run_of_stopped fuel⟩
  · rw [run_of_ok fuel hk]
    refine ⟨runLoop_eq_stopped, fun h => ?_⟩
    obtain ⟨hrun, hok⟩ := runLoop_eq_running h
    exact ⟨hrun, fun m hm => hok m (by omega)⟩
  · rw [run_of_ok fuel hk]
    exact runLoop_stops hn hrun hq
  · by_cases hk : s.cpuState = .ok
    · rw [run_of_ok fuel hk]
      exact h.runLoop_answers fuel
    · obtain ⟨t, ht, -⟩ := run_of_stopped fuel h.capacity hk
      exact .inl ⟨t, ht⟩

/-! ### Loading (30_encoding.md Part D) -/

/-- What the lines of a source text give that take a slot or fail: the discarded ones are left out. -/
def keptResults (ls : List (List Char)) : List LineResult :=
  (ls.map decodeLine).filter (fun x => decide (x ≠ .discarded))

theorem keptResults_cons_discarded {l : List Char} (ls : List (List Char))
    (h : decodeLine l = .discarded) : keptResults (l :: ls) = keptResults ls := by
  simp [keptResults, h]

theorem keptResults_cons_instr {l : List Char} (ls : List (List Char)) {i : Instr}
    (h : decodeLine l = .instr i) : keptResults (l :: ls) = .instr i :: keptResults ls := by
  simp [keptResults, h]

/-- No line of a text is an error. -/
def NoErrors (ls : List (List Char)) : Prop := ∀ l ∈ ls, ∀ e, decodeLine l ≠ .error e

theorem noErrors_nil : NoErrors [] := by simp [NoErrors]

theorem noErrors_cons {l : List Char} {ls : List (List Char)} (hl : ∀ e, decodeLine l ≠ .error e)
    (hls : NoErrors ls) : NoErrors (l :: ls) :=
  List.forall_mem_cons.mpr ⟨hl, hls⟩

theorem Program.cons_eq_ok {i : Instr} {p : Program} {is : List Instr} (h : Program.cons i p = .ok is) :
    ∃ js, p = .ok js ∧ is = i :: js := by
  cases p with
  | ok js => cases h; exact ⟨js, rfl, rfl⟩
  | bad e => cases h

theorem Program.cons_eq_bad {i : Instr} {p : Program} {e : LoadError} (h : Program.cons i p = .bad e) :
    p = .bad e := by
  cases p with
  | ok js => cases h
  | bad e' => exact h

/-- A text that decodes holds no error, and its instructions are those of its kept lines, in order. -/
theorem decodeLines_eq_ok {n free : Nat} {ls : List (List Char)} {is : List Instr}
    (h : decodeLines n free ls = .ok is) :
    NoErrors ls ∧ is.map LineResult.instr = keptResults ls := by
  induction ls generalizing n free is with
  | nil => cases h; exact ⟨noErrors_nil, rfl⟩
  | cons l ls ih =>
    unfold decodeLines at h
    split at h
    · next hl =>
      obtain ⟨hno, hmap⟩ := ih h
      exact ⟨noErrors_cons (by simp [hl]) hno, hmap.trans (keptResults_cons_discarded ls hl).symm⟩
    · cases h
    · next i hl =>
      split at h
      · cases h
      · obtain ⟨js, hjs, rfl⟩ := Program.cons_eq_ok h
        obtain ⟨hno, hmap⟩ := ih hjs
        exact ⟨noErrors_cons (by simp [hl]) hno, by
          rw [keptResults_cons_instr ls hl, List.map_cons, hmap]⟩

/-- Why a line is bad: it is an error, or it decodes and no slot is left for it. -/
def BadLine (e : LoadError) (kept free : Nat) : Prop :=
  decodeLine e.raw = .error e.what ∨
    (e.what = .invalidInstruction ∧ (∃ i, decodeLine e.raw = .instr i) ∧ kept = free)

/-- A text that does not decode splits at its first bad line. -/
theorem decodeLines_eq_bad {n free : Nat} {ls : List (List Char)} {e : LoadError}
    (h : decodeLines n free ls = .bad e) :
    ∃ before after, ls = before ++ e.raw :: after ∧ e.line = before.length + n ∧ NoErrors before ∧
      BadLine e (keptResults before).length free := by
  induction ls generalizing n free with
  | nil => cases h
  | cons l ls ih =>
    unfold decodeLines at h
    split at h
    · next hl =>
      obtain ⟨before, after, rfl, hline, hno, hbad⟩ := ih h
      refine ⟨l :: before, after, rfl, ?_, noErrors_cons (by simp [hl]) hno, ?_⟩
      · rw [hline, List.length_cons]; omega
      · rwa [keptResults_cons_discarded before hl]
    · next hl =>
      cases h
      exact ⟨[], ls, rfl, by simp, noErrors_nil, .inl hl⟩
    · next i hl =>
      split at h
      · cases h
        exact ⟨[], ls, rfl, by simp, noErrors_nil, .inr ⟨rfl, ⟨i, hl⟩, rfl⟩⟩
      · next free =>
        obtain ⟨before, after, rfl, hline, hno, hbad⟩ := ih (Program.cons_eq_bad h)
        refine ⟨l :: before, after, rfl, ?_, noErrors_cons (by simp [hl]) hno, ?_⟩
        · rw [hline, List.length_cons]; omega
        · rw [keptResults_cons_instr before hl]
          simpa [BadLine] using hbad

section
variable (s : State) (is : List Instr)

@[simp] theorem State.placeFrom_traceEnabled (p : Nat) :
    (s.placeFrom p is).traceEnabled = s.traceEnabled := by rw [State.placeFrom_eq]

@[simp] theorem State.placeFrom_reg (p : Nat) (k : RegIdx) :
    (s.placeFrom p is).reg k = s.reg k := by rw [State.placeFrom_eq]; rfl

@[simp] theorem State.placeFrom_readData (p a : Nat) :
    (s.placeFrom p is).readData a = s.readData a := by rw [State.placeFrom_eq]; rfl

/-- In a cleared machine the slots of a placed program decode to it. -/
theorem State.decode_placeFrom_of_lt (k : Nat) (hk : k < is.length) :
    decode (((s.initialise true).placeFrom 0 is).readSlot k) = .instr is[k] := by
  rw [State.readSlot_placeFrom, dif_pos ⟨k.zero_le, hk⟩]
  exact decodeReadsBackEncode is[k]

/-- In a cleared machine the slots after a placed program hold the filler HALT. -/
theorem State.decode_placeFrom_of_le (k : Nat) (hk : is.length ≤ k) :
    decode (((s.initialise true).placeFrom 0 is).readSlot k) = .instr (.halt 0 0 0) := by
  rw [State.readSlot_placeFrom, dif_neg (by omega)]
  exact decode_zero

end

/-- Settles O6: the decoded lines stand in a cleared machine, which is otherwise left alone. -/
theorem loadPlacesTheProgram : Obligations.LoadPlacesTheProgram := by
  intro s t src hc h
  obtain ⟨is, hdec, rfl⟩ := State.loadProgram_eq_loaded h
  obtain ⟨hno, hmap⟩ := decodeLines_eq_ok hdec
  obtain ⟨-, hcell0, hcells, -⟩ := initialiseGivesResetValues s true hc
  exact ⟨hno, ⟨is, hmap, decodeLines_length _ _ _ _ hdec, s.decode_placeFrom_of_lt is,
    s.decode_placeFrom_of_le is⟩, by simp, by simp, by simpa using hcell0, by simpa using hcells,
    by simp, by simp, by simp⟩

/-- Settles O7: the text splits at its first bad line, and the machine is a cleared one. -/
theorem failedLoadReportsAndClears : Obligations.FailedLoadReportsAndClears := by
  intro s t src e h
  obtain ⟨hdec, rfl⟩ := State.loadProgram_eq_failed h
  refine ⟨decodeLines_eq_bad hdec, s.reg_initialise true, fun p => ?_, rfl,
    fun hc => s32_dataReset_zero hc, fun a ha => dataReset_of_ne_zero s.cfg ha, rfl, rfl⟩
  rw [s.readSlot_initialise_true p, decode_zero]

end Sys2Proof.Machine
end

section
/-! PROOFS about the trace flag (10_state.md section 5). Two machines that differ in the flag and in the
events, but have made the same outputs, are compared step by step: what each piece of a step reads and
writes is neither the flag nor the events, and what it adds to the events is an output for both or for
none. -/

namespace Sys2Proof.Machine

/-! ### The words put out (41_halt_io.md R144) -/

/-- The words of the `Out` events among `es`, in order. -/
def outputsOf (es : List Event) : List Word :=
  es.filterMap fun e =>
    match e with
    | .output v => some v
    | _ => none

theorem State.outputs_eq (s : State) : s.outputs = outputsOf s.events := rfl

@[simp] theorem outputsOf_append (es fs : List Event) :
    outputsOf (es ++ fs) = outputsOf es ++ outputsOf fs := List.filterMap_append

@[simp] theorem outputsOf_traceEvents (s : State) (i : Instr) : outputsOf (traceEvents s i) = [] := by
  unfold traceEvents
  split <;> rfl

@[simp] theorem outputsOf_report (s : State) :
    outputsOf (if s.cpuState = .ok then [] else [.report s.cpuState]) = [] := by
  split <;> rfl

/-! ### The same machine with another log -/

/-- The machine with the trace flag and the events set otherwise. -/
def State.withLog (s : State) (on : Bool) (es : List Event) : State :=
  { s with traceEnabled := on, events := es }

/-- `q` is `s` with the flag `on` and some events, among them the same outputs. -/
def SameButLog (on : Bool) (s q : State) : Prop :=
  ∃ es, q = s.withLog on es ∧ outputsOf es = s.outputs

theorem State.setTrace_sameButLog (s : State) (on : Bool) : SameButLog on s (s.setTrace on) :=
  ⟨s.events, rfl, rfl⟩

theorem jumpIf_withLog (s : State) (taken : Bool) (a : Word) (on : Bool) (es : List Event) :
    (s.withLog on es).jumpIf taken a = (s.jumpIf taken a).withLog on es := by
  cases taken <;> rfl

/-- A body runs alike whatever the log, and adds the same events to it. -/
theorem exec_withLog {i : Instr} {s t : State} (h : exec i s = .next t) (on : Bool)
    (es : List Event) :
    exec i (s.withLog on es) = .next (t.withLog on (es ++ bodyEvents i s)) := by
  cases i with
  | inp r u v | out r u v => cases h; rfl
  | halt r u v | add r u v | sub r u v | mul r u v | lda r d b | ldc r d b =>
    cases h
    simp only [bodyEvents, List.append_nil]
    rfl
  | div r u v =>
    simp only [bodyEvents, List.append_nil]
    by_cases hz : s32 (s.reg v) = 0
    · cases (exec_div_of_zero r u v s hz).symm.trans h
      exact exec_div_of_zero r u v (s.withLog on es) hz
    · cases (exec_div_of_ne_zero r u v s hz).symm.trans h
      exact exec_div_of_ne_zero r u v (s.withLog on es) hz
  | ld r d b =>
    simp only [bodyEvents, List.append_nil]
    cases ha : inRange s.cfg (s.effAddr d b) with
    | false =>
      cases (exec_ld_of_not_inRange r b d s ha).symm.trans h
      exact exec_ld_of_not_inRange r b d (s.withLog on es) ha
    | true =>
      cases (exec_ld_of_inRange r b d s ha).symm.trans h
      exact exec_ld_of_inRange r b d (s.withLog on es) ha
  | st r d b =>
    simp only [bodyEvents, List.append_nil]
    cases ha : inRange s.cfg (s.effAddr d b) with
    | false =>
      cases (exec_st_of_not_inRange r b d s ha).symm.trans h
      exact exec_st_of_not_inRange r b d (s.withLog on es) ha
    | true =>
      cases (exec_st_of_inRange r b d s ha).symm.trans h
      exact exec_st_of_inRange r b d (s.withLog on es) ha
  | jlt r d b | jle r d b | jgt r d b | jge r d b | jeq r d b | jne r d b =>
    cases h
    simp only [bodyEvents, List.append_nil, ← jumpIf_withLog]
    rfl

/-! ### The pieces of a step -/

section
variable {on : Bool} {s q : State} (h : SameButLog on s q)
include h

theorem SameButLog.raise (f : CpuState) : SameButLog on (s.raise f) (q.raise f) := by
  obtain ⟨es, rfl, hout⟩ := h
  exact ⟨es, rfl, hout⟩

theorem SameButLog.reported : SameButLog on s.reported q.reported := by
  obtain ⟨es, rfl, hout⟩ := h
  refine ⟨es ++ (if s.cpuState = .ok then [] else [.report s.cpuState]), ?_, ?_⟩
  · rw [State.reported_eq, State.reported_eq]
    rfl
  · rw [State.outputs_eq, State.reported_events]
    simp [hout, State.outputs_eq]

theorem SameButLog.bodyStart (i : Instr) : SameButLog on (s.bodyStart i) (q.bodyStart i) := by
  obtain ⟨es, rfl, hout⟩ := h
  refine ⟨es ++ traceEvents (s.withLog on es) i, ?_, ?_⟩
  · rw [State.bodyStart_eq, State.bodyStart_eq]
    rfl
  · rw [State.outputs_eq, State.bodyStart_events]
    simp [hout, State.outputs_eq]

theorem SameButLog.exec {i : Instr} {t : State} (ht : Machine.exec i s = .next t) :
    ∃ p, Machine.exec i q = .next p ∧ SameButLog on t p := by
  obtain ⟨es, rfl, hout⟩ := h
  refine ⟨_, exec_withLog ht on es, es ++ bodyEvents i s, rfl, ?_⟩
  rw [State.outputs_eq, exec_events ht, outputsOf_append, outputsOf_append, hout, State.outputs_eq]

theorem SameButLog.fetches {i : Instr} (hf : Fetches s i) : Fetches q i := by
  obtain ⟨es, rfl, -⟩ := h
  exact ⟨hf.capacity, hf.running, hf.low, hf.high, hf.decoded⟩

/-! ### Steps and runs -/

/-- A step of one machine is a step of the other. -/
theorem SameButLog.step {t : State} (ht : Machine.step s = .next t) :
    ∃ p, Machine.step q = .next p ∧ SameButLog on t p := by
  obtain ⟨hc, ⟨hk, rfl⟩ | ⟨hk, hp, rfl⟩ | ⟨i, t, hf, hx, rfl⟩⟩ := step_cases s t ht
  · have hq : Machine.step q = .next q.reported := by
      obtain ⟨es, rfl, -⟩ := h
      exact step_of_stopped (s.withLog on es) hc hk
    exact ⟨_, hq, h.reported⟩
  · have hq : Machine.step q = .next (q.raise .instructionFault).reported := by
      obtain ⟨es, rfl, -⟩ := h
      exact step_of_pc_out_of_range (s.withLog on es) hc hk hp
    exact ⟨_, hq, (h.raise .instructionFault).reported⟩
  · obtain ⟨p, hp, hsame⟩ := (h.bodyStart i).exec hx
    exact ⟨_, (h.fetches hf).step_next hp, hsame.reported⟩

theorem SameButLog.run {n : Nat} {t : State} (ht : Host.Core.run Sys2Proof.core n s = .next t) :
    ∃ p : State, Host.Core.run Sys2Proof.core n q = .next p ∧ SameButLog on t p := by
  induction n generalizing s q with
  | zero => cases ht; exact ⟨q, rfl, h⟩
  | succ n ih =>
    obtain ⟨s', hs, hrest⟩ := core_run_succ_cases n s t ht
    obtain ⟨q', hq, hsame⟩ := h.step hs
    obtain ⟨p, hp, hlast⟩ := ih hsame hrest
    exact ⟨p, (core_run_succ n q q' hq).trans hp, hlast⟩

end

/-- Settles O48: the two runs stay the same but for the log, which holds the same outputs. -/
theorem traceFlagIsObservational : Obligations.TraceFlagIsObservational := by
  intro n s t on h
  obtain ⟨q, hq, es, rfl, hout⟩ := (s.setTrace_sameButLog on).run h
  exact ⟨_, hq, rfl, fun k => rfl, fun a => rfl, fun p => rfl, rfl, rfl, rfl, rfl, hout⟩

end Sys2Proof.Machine
end
